-- ==== Sys2Proof/Word.lean ====
section
/-! DEFINITION. The unsigned word types of 00_scope.md R8: u8, u32 and u64. Nothing in the block is signed. -/

namespace Sys2Proof

/-- u8 (R8). -/
abbrev Byte := BitVec 8

/-- u32 (R8). -/
abbrev Half := BitVec 32

/-- u64, the parameter WORD of R6. Its `+`, `-` and `*` wrap modulo 2^64, as R9 asks. -/
abbrev Word := BitVec 64

end Sys2Proof
end

