-- ==== Sys2Proof/Config.lean ====
section
/-! DEFINITION. What an implementation fixes (MIX_CONST, WINDOW_BASE) and the free values the spec calls draws.
Every opaque constant here has no body: nothing in Lean can evaluate it or prove a value of it. -/

namespace Sys2Proof

/-- MIX_CONST (R7): the eight multipliers. -/
structure MixConst where
  P : Word
  Q : Word
  R : Word
  S : Word
  T : Word
  U : Word
  V : Word
  W : Word
  deriving DecidableEq, Repr

/-- R7: bit 0 of each multiplier is 1. -/
def MixConst.Odd (k : MixConst) : Prop :=
  k.P.getLsbD 0 = true ∧ k.Q.getLsbD 0 = true ∧ k.R.getLsbD 0 = true ∧ k.S.getLsbD 0 = true ∧
  k.T.getLsbD 0 = true ∧ k.U.getLsbD 0 = true ∧ k.V.getLsbD 0 = true ∧ k.W.getLsbD 0 = true

namespace Config

/-- Bits 63:1 of the eight multipliers P..W in that order, which no source gives (D2; log entry 8). -/
opaque mixHigh : Fin 8 → BitVec 63

/-- The odd 64-bit number with the given upper 63 bits. -/
def oddWord (hi : BitVec 63) : Word := hi ++ 1#1

/-- MIX_CONST of this instance: any eight odd values, fixed for its life (R6, R7, R29). -/
def mixConst : MixConst where
  P := oddWord (mixHigh 0)
  Q := oddWord (mixHigh 1)
  R := oddWord (mixHigh 2)
  S := oddWord (mixHigh 3)
  T := oddWord (mixHigh 4)
  U := oddWord (mixHigh 5)
  V := oddWord (mixHigh 6)
  W := oddWord (mixHigh 7)

/-- The value of the n-th draw when a host read draws (R38, R40, R43, R44; log entry 9). -/
opaque freeWord : Nat → Word

/-- The value of the n-th draw when a raced input byte is drawn (R62; log entry 12). -/
opaque freeByte : Nat → Byte

/-- WINDOW_BASE (R54, D7): where the platform puts the register window. No rule depends on it (log entry 20). -/
opaque windowBase : Word

end Config

end Sys2Proof
end

