-- ==== Sys2Proof/Syntax.lean ====
section
/-! DEFINITION. The operations of spec/opcode_table.json, one constructor a row; the words they are carried by; and
the host agent's actions. -/

namespace Sys2Proof

/-- One constructor per row of the opcode table. Every data operand is implicit (R64); the ARG of SQZ and CHK is part
of the row. The first fourteen are micro-operations of the sequencer; `start` is the host command of R100. -/
inductive Instr where
  | init    -- INIT, R102
  | block   -- BLOCK, R103
  | mixa    -- MIXA, R89
  | mixb    -- MIXB, R91
  | tail    -- TAIL, R112
  | sqz0    -- SQZ 0, R119
  | sqz1    -- SQZ 1
  | sqz2    -- SQZ 2
  | sqz3    -- SQZ 3
  | chk0    -- CHK 0, R121
  | chk1    -- CHK 1
  | chk2    -- CHK 2
  | chk3    -- CHK 3
  | done    -- DONE, R122
  | start   -- START, R100: a host write to CTRL with data bit 0 = 1
  deriving DecidableEq, Repr

/-- A word that carries an operation: a micro-operation word of the ROM (format U, R63), or the data of a 64-bit host
write to CTRL (format HOSTCMD, R65 and R31). -/
inductive Code where
  | uop  (w : Byte)
  | ctrl (data : Word)
  deriving DecidableEq, Repr

/-- A host access to the register window (R30): a byte offset in the 0x80-byte window, the access width in bits, and
for a write the data. -/
inductive HostAccess where
  | read  (offset : BitVec 7) (width : Nat)
  | write (offset : BitVec 7) (width : Nat) (data : Word)
  deriving DecidableEq, Repr

/-- What the host can do to the block (R15): access a register, supply a byte of IN or take it away (R47, R57; `none` is
"the host supplied no byte"), or reset the block (R152). -/
inductive HostAction where
  | access   (a : HostAccess)
  | setInput (addr : Word) (v : Option Byte)
  | reset
  deriving DecidableEq, Repr

/-- Whose turn it is (R15, R142: sequencer steps and host actions interleave and never coincide). -/
inductive Turn where
  | sequencer
  | host (a : HostAction)
  deriving DecidableEq, Repr

/-- A line of micro-assembly (R71): an operation, or one of the three pseudo-instructions (R72). -/
inductive AsmLine where
  | op (i : Instr)
  | final   -- FINAL
  | nop     -- NOP
  | jdone   -- JDONE
  deriving DecidableEq, Repr

end Sys2Proof
end

