-- ==== Sys2Proof/WellFormed.lean ====
section
/-! DEFINITION. The checks on syntax. No instruction has an operand to check; a host access has two checks (R39). -/

namespace Sys2Proof

/-- Every instruction is well formed: R64 gives none of them an operand beyond its own row. -/
def Instr.wf : Instr → Bool
  | .init | .block | .mixa | .mixb | .tail => true
  | .sqz0 | .sqz1 | .sqz2 | .sqz3 => true
  | .chk0 | .chk1 | .chk2 | .chk3 => true
  | .done | .start => true

/-- The byte offset a host access names. -/
def HostAccess.offset : HostAccess → BitVec 7
  | .read off _ => off
  | .write off _ _ => off

/-- The width of a host access in bits. -/
def HostAccess.width : HostAccess → Nat
  | .read _ w => w
  | .write _ w _ => w

/-- R39: the access is 64 bits wide and its offset is a multiple of 8. -/
def HostAccess.wf (a : HostAccess) : Bool :=
  a.width == 64 && a.offset.toNat % 8 == 0

/-- The host address an access lies at: WINDOW_BASE plus its offset (R30, R54). -/
def HostAccess.busAddress (a : HostAccess) : Word :=
  Config.windowBase + a.offset.setWidth 64

end Sys2Proof
end

