-- ==== Sys2Proof/Decode.lean ====
section
/-! DEFINITION. Decoding of micro-operation words (R63-R67) and of CTRL write data (R31, R100), and the encoder written
from the same tables. -/

namespace Sys2Proof

/-- Why a word carries no operation. The first three are the spec's one result ILLEGAL (R66, R67). -/
inductive DecodeError where
  | reservedBits   -- RSV is not 00
  | reservedArg    -- ARG is not 00 under an OP that takes no operand
  | illegalOp      -- OP is 0x0 or 0x9..0xF
  | noStartBit     -- CTRL data with bit 0 = 0: not a START, and no effect (R31)
  deriving DecidableEq, Repr

/-- Bits 7:4 of a micro-operation word (R63). -/
def uopOp (w : Byte) : BitVec 4 := w.extractLsb' 4 4

/-- Bits 3:2 of a micro-operation word, which must be 00 (R63). -/
def uopRsv (w : Byte) : BitVec 2 := w.extractLsb' 2 2

/-- Bits 1:0 of a micro-operation word (R63). -/
def uopArg (w : Byte) : BitVec 2 := w.extractLsb' 0 2

/-- An OP that takes no operand requires ARG = 00 (R64). -/
def withoutArg (w : Byte) (i : Instr) : Except DecodeError Instr :=
  if uopArg w = 0#2 then .ok i else .error .reservedArg

/-- SQZ by its slot (R65). -/
def sqzOfSlot (arg : BitVec 2) : Instr :=
  match arg.toNat with
  | 0 => .sqz0
  | 1 => .sqz1
  | 2 => .sqz2
  | _ => .sqz3

/-- CHK by its threshold (R65). -/
def chkOfThreshold (arg : BitVec 2) : Instr :=
  match arg.toNat with
  | 0 => .chk0
  | 1 => .chk1
  | 2 => .chk2
  | _ => .chk3

/-- decode of R66, total on every 8-bit word. -/
def decodeUop (w : Byte) : Except DecodeError Instr :=
  if uopRsv w ≠ 0#2 then .error .reservedBits
  else match (uopOp w).toNat with
    | 0x1 => withoutArg w .init
    | 0x2 => withoutArg w .block
    | 0x3 => withoutArg w .mixa
    | 0x4 => withoutArg w .mixb
    | 0x5 => withoutArg w .tail
    | 0x6 => .ok (sqzOfSlot (uopArg w))
    | 0x7 => .ok (chkOfThreshold (uopArg w))
    | 0x8 => withoutArg w .done
    | _ => .error .illegalOp

/-- R31, R100: CTRL data carries START when bit 0 is 1; bits 63:1 are ignored. -/
def decodeCtrl (data : Word) : Except DecodeError Instr :=
  if data.getLsbD 0 then .ok .start else .error .noStartBit

/-- The operation a word carries, or why it carries none. -/
def decode : Code → Except DecodeError Instr
  | .uop w => decodeUop w
  | .ctrl data => decodeCtrl data

/-- The word of R63 with these OP and ARG fields, RSV being 00. -/
def uopWord (op : BitVec 4) (arg : BitVec 2) : Byte := op ++ 0#2 ++ arg

/-- The word of each operation (R65); START with its reserved bits 0. -/
def encode : Instr → Code
  | .init  => .uop (uopWord 0x1#4 0)
  | .block => .uop (uopWord 0x2#4 0)
  | .mixa  => .uop (uopWord 0x3#4 0)
  | .mixb  => .uop (uopWord 0x4#4 0)
  | .tail  => .uop (uopWord 0x5#4 0)
  | .sqz0  => .uop (uopWord 0x6#4 0)
  | .sqz1  => .uop (uopWord 0x6#4 1)
  | .sqz2  => .uop (uopWord 0x6#4 2)
  | .sqz3  => .uop (uopWord 0x6#4 3)
  | .chk0  => .uop (uopWord 0x7#4 0)
  | .chk1  => .uop (uopWord 0x7#4 1)
  | .chk2  => .uop (uopWord 0x7#4 2)
  | .chk3  => .uop (uopWord 0x7#4 3)
  | .done  => .uop (uopWord 0x8#4 0)
  | .start => .ctrl 1#64

/-- Which word the opcode table's bits stand for: up to 8 bits a ROM word of format U, but for the START row's own
word 1 given in short form (its 63 upper bits are ignored); more bits are CTRL write data (log entry 19). -/
def tableCode (nbits w : Nat) : Code :=
  if nbits ≤ 8 ∧ w ≠ 1 then .uop (BitVec.ofNat 8 w) else .ctrl (BitVec.ofNat 64 w)

/-- What the decoder reads from a table row's bits. -/
def decodeTableWord (nbits w : Nat) : Option Instr :=
  match decode (tableCode nbits w) with
  | .ok i => some i
  | .error _ => none

/-- The mnemonics that take no operand (R71) and the pseudo-instructions (R72). START is a host command and no line of
assembly. -/
def plainMnemonics : List (List Char × AsmLine) := [
  (['I', 'N', 'I', 'T'], .op .init), (['B', 'L', 'O', 'C', 'K'], .op .block), (['M', 'I', 'X', 'A'], .op .mixa),
  (['M', 'I', 'X', 'B'], .op .mixb), (['T', 'A', 'I', 'L'], .op .tail), (['D', 'O', 'N', 'E'], .op .done),
  (['F', 'I', 'N', 'A', 'L'], .final), (['N', 'O', 'P'], .nop), (['J', 'D', 'O', 'N', 'E'], .jdone)]

/-- A decimal integer (R71). -/
def decimal (cs : List Char) : Option Nat :=
  if cs ≠ [] ∧ cs.all Char.isDigit then some (cs.foldl (fun n c => 10 * n + (c.toNat - 48)) 0) else none

/-- The words of a text, separated by blanks. -/
def blankWords (cs : List Char) : List (List Char) :=
  (cs.foldr (fun c ws => if c.isWhitespace then [] :: ws else
    match ws with
    | [] => [[c]]
    | w :: ws => (c :: w) :: ws) [[]]).filter (· ≠ [])

/-- SQZ j and CHK c, the operand 0 to 3 (R71). -/
def operandLine (m d : List Char) : Option AsmLine :=
  match decimal d with
  | none => none
  | some n =>
    if 3 < n then none
    else if m = ['S', 'Q', 'Z'] then some (.op (sqzOfSlot (BitVec.ofNat 2 n)))
    else if m = ['C', 'H', 'K'] then some (.op (chkOfThreshold (BitVec.ofNat 2 n)))
    else none

/-- A text with its comment taken off: everything from the first semicolon on (R71). -/
def withoutComment (cs : List Char) : List Char := cs.takeWhile (· ≠ ';')

/-- A text with its label or ROM address taken off: everything up to the first colon (R71). -/
def withoutLabel (cs : List Char) : List Char :=
  if ':' ∈ cs then (cs.dropWhile (· ≠ ':')).drop 1 else cs

/-- One line of assembly text, `[label:] MNEMONIC [operand] [; comment]` (R71): the lines it stands for (none for a blank
line), or no reading. -/
def parseLine (cs : List Char) : Option (List AsmLine) :=
  match blankWords (withoutLabel (withoutComment cs)) with
  | [] => some []
  | [m] => (plainMnemonics.lookup m).map fun l => [l]
  | [m, d] => (operandLine m d).map fun l => [l]
  | _ => none

/-- The expansion of a line (R72). -/
def AsmLine.expand : AsmLine → List Instr
  | .op i  => [i]
  | .final => [.mixa, .mixb, .mixa]
  | .nop   => [.chk0]
  | .jdone => [.chk3]

/-- The ROM words of a micro-operation: its one word (R65); none for the host command. -/
def Instr.romWords (i : Instr) : List Byte :=
  match encode i with
  | .uop w => [w]
  | .ctrl _ => []

/-- Each line's words at the next ROM addresses (R71). -/
def assemble (lines : List AsmLine) : List Byte :=
  (lines.flatMap AsmLine.expand).flatMap Instr.romWords

end Sys2Proof
end

