-- ==== Sys2Proof/Machine/Rom.lean ====
section
/-! DEFINITION. The fixed contents of the sequencer ROM (R130, R131) and DONE_ADDR (R6). -/

namespace Sys2Proof.Machine

/-- UROM: addresses 0 to 18 hold the digest program of R130, addresses 19 to 31 hold 0x00 (R131). -/
def uromImage : Vector Byte 32 := #v[
  0x10,                          -- 0      INIT
  0x20,                          -- 1      BLOCK
  0x40,                          -- 2      MIXB (post-loop B, R107)
  0x50,                          -- 3      TAIL
  0x30, 0x40, 0x30,              -- 4-6    MIXA; MIXB; MIXA (R118)
  0x60,                          -- 7      SQZ 0
  0x71,                          -- 8      CHK 1
  0x30, 0x61,                    -- 9-10   MIXA; SQZ 1
  0x72,                          -- 11     CHK 2
  0x30, 0x40, 0x30, 0x62,        -- 12-15  MIXA; MIXB; MIXA; SQZ 2
  0x30, 0x63,                    -- 16-17  MIXA; SQZ 3
  0x80,                          -- 18     DONE
  0x00, 0x00, 0x00, 0x00, 0x00, 0x00, 0x00, 0x00, 0x00, 0x00, 0x00, 0x00, 0x00]

/-- DONE_ADDR (R6, R130): the ROM address of the DONE word. -/
def doneAddr : BitVec 5 := 18#5

end Sys2Proof.Machine
end

