-- ==== Sys2Proof/Machine/State.lean ====
section
/-! DEFINITION. The machine's state (10_state.md), the reasons a step can stop, and the state right after reset. -/

namespace Sys2Proof.Machine

/-- The four state words h0..h3 (R19). -/
structure Lanes where
  h0 : Word
  h1 : Word
  h2 : Word
  h3 : Word
  deriving DecidableEq, Repr

/-- A byte-addressed store as (address, byte) pairs, addresses strictly rising; an unlisted address holds no byte. For
IN this is R47's `In a = none`. -/
abbrev Memory := List Host.Cell

/-- Everything the spec gives the block, IN, and the model's own four fields (the last four). -/
structure State where
  /-- H[0..3], R19. -/
  h        : Lanes
  /-- OUT[0..31], R21. -/
  out      : Vector Byte 32
  /-- UPC, R22. -/
  upc      : BitVec 5
  /-- PH, R24: the next full block applies primitive B. -/
  ph       : Bool
  /-- CUR, R25. -/
  cur      : Word
  /-- REM, R26. -/
  rem      : Word
  /-- SEED_L, R27. -/
  seedL    : Word
  /-- LEN_L, R27. -/
  lenL     : Word
  /-- SCLS, R27. -/
  scls     : BitVec 2
  /-- BUSY, R28. -/
  busy     : Bool
  /-- DONE, R28. -/
  done     : Bool
  /-- SIZE, R33: the written-or-not cell of R40. -/
  size     : Option Half
  /-- SEED, R34: the written-or-not cell of R40. -/
  seed     : Option Word
  /-- LENGTH, R35: the written-or-not cell of R40. -/
  length   : Option Word
  /-- UROM, R130: fixed contents that no operation and no host access writes (R29; log entry 4). -/
  urom     : Vector Byte 32
  /-- IN, R47: the bytes the host supplied. -/
  inp      : Memory
  /-- Model's own: the bytes of IN the host changed during this run, each with its drawn value (R62; log entry 12). -/
  raced    : Memory
  /-- Model's own: whose turn is next; when empty, the sequencer's (R15, R142; log entry 1). -/
  schedule : List Turn
  /-- Model's own: the data the last host read returned, none before the first (log entry 17). -/
  readData : Option Word
  /-- Model's own: the number of draws taken so far (log entry 9). -/
  draws    : Nat
  deriving DecidableEq, Repr

/-- The model faults of R140. None is a hardware exception (R138); a run that meets one ends there. -/
inductive Fault where
  /-- UNWRITTEN_PARAM: raised by START while SIZE, SEED or LENGTH is empty; the spec names the fault itself (R40, R100,
  R140's table, D15, U14). Safe: real hardware would run with some value; the model admits no run. -/
  | unwrittenParam
  /-- ILLEGAL_UOP: raised by the fetch of an ILLEGAL word while BUSY = 1 (R68). Safe: the fixed ROM never reaches one. -/
  | illegalUop
  /-- TAIL_REM: raised by TAIL with REM >= 16 (R116). Safe: the fixed ROM never reaches the case. -/
  | tailRem
  deriving DecidableEq, Repr

/-- The steps the model does not admit. -/
inductive Refusal where
  /-- An instruction without a meaning yet. Safe. -/
  | notModelled (mnemonic : String)
  /-- Stuck (R48, R140): BLOCK or TAIL would read an input byte the host did not supply, so the sequencer has no step and
  nothing is written. It is not a fault. Safe: such a run has no end state. -/
  | absentInput
  /-- A host access that is not 64 bits wide at a multiple of 8 (R39, D25). Safe: the model admits no such access. -/
  | badHostAccess
  deriving DecidableEq, Repr

/-- The machine right after reset (R44): BUSY and DONE 0; SIZE, SEED and LENGTH empty; UROM its fixed image. R44 gives H,
OUT, UPC, PH, CUR, REM, SEED_L, LEN_L and SCLS no value: DESIGN CHOICE 0, log entry 6 (unsafe). No input byte is
supplied, no host action is due. -/
def State.reset : State where
  h := ⟨0, 0, 0, 0⟩
  out := Vector.replicate 32 0
  upc := 0
  ph := false
  cur := 0
  rem := 0
  seedL := 0
  lenL := 0
  scls := 0
  busy := false
  done := false
  size := none
  seed := none
  length := none
  urom := uromImage
  inp := []
  raced := []
  schedule := []
  readData := none
  draws := 0

end Sys2Proof.Machine
end

