-- ==== Sys2Proof/Machine/Ops.lean ====
section
/-! DEFINITION. The named operations over memory, OUT and the sequencer state that every meaning is written with.
The block has no exception, trap or trap return (R138, R143, R144), so there is none to take here: `raiseModelFault` is
R12's `raise ModelFault(reason)` and `stuck` is R48's step that is not admitted. -/

namespace Sys2Proof.Machine

/-- The byte a store holds at an address, if any. -/
def Memory.read : Memory → Nat → Option Byte
  | [], _ => none
  | (a', b) :: m, a => if a = a' then some b else Memory.read m a

/-- Puts a byte at an address, keeping the addresses strictly rising. -/
def Memory.write : Memory → Nat → Byte → Memory
  | [], a, b => [(a, b)]
  | (a', b') :: m, a, b =>
    if a < a' then (a, b) :: (a', b') :: m
    else if a = a' then (a, b) :: m
    else (a', b') :: Memory.write m a b

/-- Leaves an address without a byte. -/
def Memory.erase : Memory → Nat → Memory
  | [], _ => []
  | (a', b') :: m, a => if a = a' then Memory.erase m a else (a', b') :: Memory.erase m a

/-- Makes an address hold the given byte, or none. -/
def Memory.put (m : Memory) (a : Nat) : Option Byte → Memory
  | some b => m.write a b
  | none => m.erase a

/-- The addresses are strictly rising from `lo` on and are u64 addresses. -/
def Memory.wfFrom : Nat → Memory → Bool
  | _, [] => true
  | lo, (a, _) :: m => decide (lo ≤ a) && decide (a < 2 ^ 64) && Memory.wfFrom (a + 1) m

/-- The canonical form of a store: strictly rising u64 addresses. -/
def Memory.wf (m : Memory) : Bool := Memory.wfFrom 0 m

/-- One input byte as a run reads it: the drawn value where the host changed the byte during the run (R62), else what IN
holds (R47). -/
def readByte (s : State) (a : Nat) : Option Byte :=
  match s.raced.read a with
  | some b => some b
  | none => s.inp.read a

/-- The n input bytes from an address on, if all are present (R48). Addresses do not wrap (R48; log entry 13). -/
def readBytes (s : State) : Nat → Nat → Option (List Byte)
  | _, 0 => some []
  | a, n + 1 =>
    match readByte s a with
    | none => none
    | some b =>
      match readBytes s (a + 1) n with
      | none => none
      | some bs => some (b :: bs)

/-- Bytes assembled little-endian: the first is the least significant (R45, R80). -/
def leWord : List Byte → Word
  | [] => 0
  | b :: bs => b.setWidth 64 ||| (leWord bs <<< 8)

/-- READ64: MemRead(a, 8) (R80). -/
def readWord (s : State) (a : Nat) : Option Word := (readBytes s a 8).map leWord

/-- Byte k of a u64: bits 8k+7 to 8k (R8, R45). -/
def byteOf (v : Word) (k : Nat) : Byte := v.extractLsb' (8 * k) 8

/-- OutWrite(off, v) (R82): OUT[off + k] is byte k of v for k = 0..7; the other bytes stay. -/
def outWrite (o : Vector Byte 32) (off : Nat) (v : Word) : Vector Byte 32 :=
  Vector.ofFn fun i => if off ≤ i.val ∧ i.val < off + 8 then byteOf v (i.val - off) else o[i]

/-- ZEROFILL (R83). -/
def zeroOut : Vector Byte 32 := Vector.replicate 32 0

/-- OUTj (R37): output bytes 8j to 8j+7 as a little-endian u64. -/
def outWord (o : Vector Byte 32) (j : Nat) : Word := leWord ((o.toList.drop (8 * j)).take 8)

/-- The first4 value (R86): output bytes 0 to 3 as a little-endian u32. -/
def first4 (o : Vector Byte 32) : Half := (leWord (o.toList.take 4)).setWidth 32

/-- upc <- upc + 1 (5 bits; log entry 14). -/
def State.advance (s : State) : State := { s with upc := s.upc + 1 }

/-- upc <- DONE_ADDR (R121). -/
def State.jumpDone (s : State) : State := { s with upc := doneAddr }

/-- Writes the four state words. -/
def State.setLanes (s : State) (h : Lanes) : State := { s with h := h }

/-- Writes the output buffer. -/
def State.setOut (s : State) (o : Vector Byte 32) : State := { s with out := o }

/-- A host read returns v. -/
def State.setReadData (s : State) (v : Word) : State := { s with readData := some v }

/-- The micro-operation word at UPC (R63). -/
def fetchWord (s : State) : Byte := s.urom[s.upc.toFin]

/-- raise ModelFault(reason) (R12): the run ends. -/
def raiseModelFault (r : Fault) : Host.Outcome State Fault Refusal := .fault r

/-- The step is not admitted, because an input byte is absent (R48). -/
def stuck : Host.Outcome State Fault Refusal := .refused .absentInput

/-- Reset (R152): every piece of the block's state takes its reset value. IN is the host's, UROM is fixed (R155), and the
turns still due, the draw counter and the data the host last read are not the block's (log entry 18). -/
def resetBlock (s : State) : State :=
  { State.reset with
    urom := s.urom
    inp := s.inp
    schedule := s.schedule
    readData := s.readData
    draws := s.draws }

end Sys2Proof.Machine
end

