-- ==== Sys2Proof/Machine/Operands.lean ====
section
/-! DEFINITION. Operand forms: the SQZ slot, the size class, the lanes and TAILMAP. All other operands are implicit
(R64). -/

namespace Sys2Proof.Machine

/-- The output byte offset of a slot: ARG shifted left by 3 (R64). -/
def slotOffset (j : BitVec 2) : Nat := 8 * j.toNat

/-- sizeClass (R14). -/
def sizeClass (size : Half) : BitVec 2 :=
  if size = 128 then 1 else if size = 256 then 2 else 0

/-- Adds a value into the state word with the given number, wrapping. -/
def Lanes.add (h : Lanes) (lane : Fin 4) (v : Word) : Lanes :=
  match lane with
  | 0 => { h with h0 := h.h0 + v }
  | 1 => { h with h1 := h.h1 + v }
  | 2 => { h with h2 := h.h2 + v }
  | 3 => { h with h3 := h.h3 + v }

/-- One row of TAILMAP (R113). -/
structure TailEntry where
  index : Nat
  lane  : Fin 4
  shift : Nat
  deriving DecidableEq, Repr

/-- TAILMAP (R113), in the order R112 applies it: from index 14 down to 0. -/
def tailMap : List TailEntry := [
  ⟨14, 0, 56⟩, ⟨13, 1, 48⟩, ⟨12, 2, 40⟩, ⟨11, 3, 32⟩,
  ⟨10, 0, 24⟩, ⟨9, 1, 16⟩, ⟨8, 2, 8⟩, ⟨7, 3, 0⟩,
  ⟨6, 0, 48⟩, ⟨5, 1, 40⟩, ⟨4, 2, 32⟩, ⟨3, 3, 24⟩,
  ⟨2, 0, 16⟩, ⟨1, 1, 8⟩, ⟨0, 2, 0⟩]

/-- The value a tail byte adds: zero-extended, then shifted left (R112). -/
def TailEntry.value (e : TailEntry) (b : Byte) : Word := b.setWidth 64 <<< e.shift

/-- Applies the given rows of TAILMAP whose index is below REM, reading each byte at CUR + index; none if a byte is absent
(R112, R48). -/
def absorbTail (s : State) : List TailEntry → Lanes → Option Lanes
  | [], h => some h
  | e :: es, h =>
    if e.index < s.rem.toNat then
      match readByte s (s.cur.toNat + e.index) with
      | none => none
      | some b => absorbTail s es (h.add e.lane (e.value b))
    else absorbTail s es h

end Sys2Proof.Machine
end

