-- ==== Sys2Proof/Machine/Flags.lean ====
section
/-! DEFINITION. The flag-like bits: PH, BUSY and DONE (R24, R28, R41). No arithmetic sets a flag (R41). -/

namespace Sys2Proof.Machine

/-- STATUS (R32): bit 0 BUSY, bit 1 DONE, bits 63:2 read 0. -/
def statusWord (s : State) : Word :=
  (BitVec.ofBool s.done ++ BitVec.ofBool s.busy).setWidth 64

/-- START sets BUSY to 1 and DONE to 0 (R28). -/
def State.setBusy (s : State) : State := { s with busy := true, done := false }

/-- The DONE micro-operation sets BUSY to 0 and DONE to 1 (R28). -/
def State.setDone (s : State) : State := { s with busy := false, done := true }

/-- The output registers hold a run's result: BUSY = 0 and a run has completed, which is when DONE = 1 (R36, R43, R44, R159;
log entry 10). -/
def outputReadable (s : State) : Bool := !s.busy && s.done

end Sys2Proof.Machine
end

