-- ==== Sys2Proof/Machine/Datapath.lean ====
section
/-! DEFINITION. The multiply-rotate-mix datapath: mrm and the primitives A and B, for any MIX_CONST (41_mixing.md). -/

namespace Sys2Proof.Machine

/-- rotr64 (R10). -/
def rotr64 (x : Word) (n : Nat) : Word := (x >>> n) ||| (x <<< (64 - n))

/-- mrm (R13): multiply by m1, rotate right by r, multiply by m2. -/
def mrm (x m1 : Word) (r : Nat) (m2 : Word) : Word := rotr64 (x * m1) r * m2

/-- Primitive A (R89): lanes 1 and 3 read the new values of lanes 0 and 2. -/
def mixA (k : MixConst) (h : Lanes) : Lanes :=
  let a := mrm h.h0 k.Q 23 k.P
  let b := mrm (h.h1 ^^^ a) k.S 29 k.R
  let c := mrm h.h2 k.U 31 k.T
  let d := mrm (h.h3 ^^^ c) k.W 37 k.V
  ⟨a, b, c, d⟩

/-- Primitive B (R91): words 1 and 2 with the seed; words 0 and 3 pass through. -/
def mixB (k : MixConst) (seed : Word) (h : Lanes) : Lanes :=
  let a := mrm h.h1 k.V 23 k.W
  let b := mrm (h.h2 ^^^ (a + seed)) k.R 23 k.S
  { h with h1 := a, h2 := b }

/-- The lane update of one block (R103): g1 into lanes 0 and 1, g2 into lanes 2 and 3. -/
def absorbWords (h : Lanes) (g1 g2 : Word) : Lanes :=
  ⟨h.h0 - g1, h.h1 + g1, h.h2 + g2, h.h3 - g2⟩

/-- The primitive of a block by its phase (R24): B when PH = 1, A when PH = 0. -/
def mixByPhase (k : MixConst) (ph : Bool) (seed : Word) (h : Lanes) : Lanes :=
  if ph then mixB k seed h else mixA k h

/-- The state words INIT derives from the seed and the length (R102). -/
def initLanes (seed len : Word) : Lanes :=
  ⟨seed + len + 1, seed + len + 3, seed + len + 5, seed + len + 7⟩

/-- The squeeze value (R119): (0 - H[2]) - H[3], wrapping. -/
def squeezeWord (h : Lanes) : Word := (0 - h.h2) - h.h3

end Sys2Proof.Machine
end

