-- ==== Sys2Proof/Machine/Driver.lean ====
section
/-! DEFINITION. The digest driver's operations (42_driver_blocks.md): START, INIT and BLOCK. -/

namespace Sys2Proof.Machine

/-- An accepted START (R100): latches the parameters (R27) and enters ROM address 0. A new run has no raced byte yet
(R57 item 2; log entry 12). -/
def acceptStart (size : Half) (seed length : Word) (s : State) : State :=
  { s with
    seedL := seed
    lenL := length
    scls := sizeClass size
    upc := 0
    raced := [] }.setBusy

/-- START (R100): ignored while BUSY = 1 (R101); else faults if a parameter cell is empty (R40); else begins a run. -/
def execStart (s : State) : Host.Outcome State Fault Refusal :=
  if s.busy then .next s
  else
    match s.size, s.seed, s.length with
    | some size, some seed, some length => .next (acceptStart size seed length s)
    | _, _, _ => raiseModelFault .unwrittenParam

/-- INIT (R102). -/
def execInit (s : State) : Host.Outcome State Fault Refusal :=
  .next { s with
    out := zeroOut
    h := initLanes s.seedL s.lenL
    cur := 0
    rem := s.lenL
    ph := false }.advance

/-- The state after one absorbed block with input words g1 and g2 (R103); UPC stays. -/
def absorbBlock (g1 g2 : Word) (s : State) : State :=
  { s with
    h := mixByPhase Config.mixConst s.ph s.seedL (absorbWords s.h g1 g2)
    ph := !s.ph
    cur := s.cur + 16
    rem := s.rem - 16 }

/-- BLOCK (R103): absorbs one block and stays while REM >= 16; else goes on. -/
def execBlock (s : State) : Host.Outcome State Fault Refusal :=
  if 16 ≤ s.rem.toNat then
    match readWord s s.cur.toNat, readWord s (s.cur.toNat + 8) with
    | some g1, some g2 => .next (absorbBlock g1 g2 s)
    | _, _ => stuck
  else .next s.advance

end Sys2Proof.Machine
end

