-- ==== Sys2Proof/Machine/Finalize.lean ====
section
/-! DEFINITION. The squeeze SQZ, the size tests CHK and the end of a run DONE (44_finalize_squeeze.md). -/

namespace Sys2Proof.Machine

/-- SQZ j (R119). -/
def squeeze (j : BitVec 2) (s : State) : Host.Outcome State Fault Refusal :=
  .next (s.setOut (outWrite s.out (slotOffset j) (squeezeWord s.h))).advance

/-- CHK c (R121): the run ends early when SCLS < c. -/
def checkClass (c : BitVec 2) (s : State) : Host.Outcome State Fault Refusal :=
  .next (if s.scls.toNat < c.toNat then s.jumpDone else s.advance)

/-- SQZ 0 (R119). -/
def execSqz0 (s : State) : Host.Outcome State Fault Refusal := squeeze 0#2 s

/-- SQZ 1 (R119). -/
def execSqz1 (s : State) : Host.Outcome State Fault Refusal := squeeze 1#2 s

/-- SQZ 2 (R119). -/
def execSqz2 (s : State) : Host.Outcome State Fault Refusal := squeeze 2#2 s

/-- SQZ 3 (R119). -/
def execSqz3 (s : State) : Host.Outcome State Fault Refusal := squeeze 3#2 s

/-- CHK 0 (R121): never jumps (R69). -/
def execChk0 (s : State) : Host.Outcome State Fault Refusal := checkClass 0#2 s

/-- CHK 1 (R121). -/
def execChk1 (s : State) : Host.Outcome State Fault Refusal := checkClass 1#2 s

/-- CHK 2 (R121). -/
def execChk2 (s : State) : Host.Outcome State Fault Refusal := checkClass 2#2 s

/-- CHK 3 (R121): jumps for every size class that START latches (R69). -/
def execChk3 (s : State) : Host.Outcome State Fault Refusal := checkClass 3#2 s

/-- DONE (R122): UPC stays. -/
def execDone (s : State) : Host.Outcome State Fault Refusal := .next s.setDone

end Sys2Proof.Machine
end

