-- ==== Sys2Proof/Machine/Mixing.lean ====
section
/-! DEFINITION. The mixing micro-operations MIXA and MIXB (41_mixing.md). -/

namespace Sys2Proof.Machine

/-- MIXA (R89). -/
def execMixa (s : State) : Host.Outcome State Fault Refusal :=
  .next (s.setLanes (mixA Config.mixConst s.h)).advance

/-- MIXB (R91), with the latched seed (R93). -/
def execMixb (s : State) : Host.Outcome State Fault Refusal :=
  .next (s.setLanes (mixB Config.mixConst s.seedL s.h)).advance

end Sys2Proof.Machine
end

