-- ==== Sys2Proof/Machine/Tail.lean ====
section
/-! DEFINITION. The tail absorber TAIL (43_tail.md). -/

namespace Sys2Proof.Machine

/-- TAIL (R112): the REM test comes before any input read (R142); CUR and REM stay. -/
def execTail (s : State) : Host.Outcome State Fault Refusal :=
  if 16 ≤ s.rem.toNat then raiseModelFault .tailRem
  else
    match absorbTail s tailMap s.h with
    | some h => .next (s.setLanes h).advance
    | none => stuck

end Sys2Proof.Machine
end

