-- ==== Sys2Proof/Machine/Dispatch.lean ====
section
/-! DEFINITION. What each instruction does: one arm per constructor of Instr. -/

namespace Sys2Proof.Machine

def exec (i : Instr) (s : State) : Host.Outcome State Fault Refusal :=
  match i with
  | .init => Sys2Proof.Machine.execInit s
  | .block => Sys2Proof.Machine.execBlock s
  | .mixa => Sys2Proof.Machine.execMixa s
  | .mixb => Sys2Proof.Machine.execMixb s
  | .tail => Sys2Proof.Machine.execTail s
  | .sqz0 => Sys2Proof.Machine.execSqz0 s
  | .sqz1 => Sys2Proof.Machine.execSqz1 s
  | .sqz2 => Sys2Proof.Machine.execSqz2 s
  | .sqz3 => Sys2Proof.Machine.execSqz3 s
  | .chk0 => Sys2Proof.Machine.execChk0 s
  | .chk1 => Sys2Proof.Machine.execChk1 s
  | .chk2 => Sys2Proof.Machine.execChk2 s
  | .chk3 => Sys2Proof.Machine.execChk3 s
  | .done => Sys2Proof.Machine.execDone s
  | .start => Sys2Proof.Machine.execStart s

end Sys2Proof.Machine
end

