-- ==== Sys2Proof/Machine/HostPort.lean ====
section
/-! DEFINITION. The host's side: register reads and writes (R30-R40), supplying IN (R47, R62) and reset (R152). -/

namespace Sys2Proof.Machine

/-- The host registers (R30); OUT0 to OUT3 by their number. -/
inductive HostReg where
  | ctrl
  | status
  | size
  | seed
  | length
  | first4
  | out (j : Fin 4)
  | reserved
  deriving DecidableEq, Repr

/-- The register at a byte offset of the window (R30); the model admits only multiples of 8 (R39). -/
def regAt (off : BitVec 7) : HostReg :=
  if off = 0x00#7 then .ctrl
  else if off = 0x08#7 then .status
  else if off = 0x10#7 then .size
  else if off = 0x18#7 then .seed
  else if off = 0x20#7 then .length
  else if off = 0x28#7 then .first4
  else if off = 0x30#7 then .out 0
  else if off = 0x38#7 then .out 1
  else if off = 0x40#7 then .out 2
  else if off = 0x48#7 then .out 3
  else .reserved

/-- A host read returns an unspecified value: the model draws it. -/
def drawRead (s : State) : State :=
  { s with readData := some (Config.freeWord s.draws), draws := s.draws + 1 }

/-- A host read of SEED or LENGTH: the value last written, or a draw from an empty cell (R34, R35, R40). -/
def readCell (c : Option Word) (s : State) : State :=
  match c with
  | some v => s.setReadData v
  | none => drawRead s

/-- A host read of SIZE: the 32 bits last written; from an empty cell 32 drawn bits. Bits 63:32 read 0 (R33, R40; log
entry 16). -/
def readSize (s : State) : State :=
  match s.size with
  | some v => s.setReadData (v.setWidth 64)
  | none =>
    { s with
      readData := some (((Config.freeWord s.draws).setWidth 32).setWidth 64)
      draws := s.draws + 1 }

/-- A host read of a view of OUT: its value when a run's result is held, else a draw (R36, R37, R43, R44). -/
def readOutput (v : Word) (s : State) : State :=
  if outputReadable s then s.setReadData v else drawRead s

/-- An admitted host read (R30-R38); the reserved offsets 0x50 to 0x7F draw (R38). -/
def hostRead (r : HostReg) (s : State) : State :=
  match r with
  | .ctrl => s.setReadData 0
  | .status => s.setReadData (statusWord s)
  | .size => readSize s
  | .seed => readCell s.seed s
  | .length => readCell s.length s
  | .first4 => readOutput ((first4 s.out).setWidth 64) s
  | .out j => readOutput (outWord s.out j.val) s
  | .reserved => drawRead s

/-- A host write to CTRL: START when bit 0 is 1, else nothing (R31). -/
def writeCtrl (data : Word) (s : State) : Host.Outcome State Fault Refusal :=
  match decodeCtrl data with
  | .ok i => exec i s
  | .error _ => .next s

/-- An admitted host write (R30-R38): CTRL, SIZE (bits 31:0), SEED, LENGTH; every other register ignores it, and a reserved
offset changes nothing (R32, R36-R38). -/
def hostWrite (r : HostReg) (data : Word) (s : State) : Host.Outcome State Fault Refusal :=
  match r with
  | .ctrl => writeCtrl data s
  | .size => .next { s with size := some (data.setWidth 32) }
  | .seed => .next { s with seed := some data }
  | .length => .next { s with length := some data }
  | .status | .first4 | .out _ | .reserved => .next s

/-- A host access: refused unless 64 bits wide at a multiple of 8 (R39). -/
def hostAccess (a : HostAccess) (s : State) : Host.Outcome State Fault Refusal :=
  if a.wf then
    match a with
    | .read off _ => .next (hostRead (regAt off) s)
    | .write off _ data => hostWrite (regAt off) data s
  else .refused .badHostAccess

/-- The host makes a byte of IN present with a value, or absent. A change to a byte of IN[0 .. LEN_L-1] while BUSY = 1 races
with the run: a run's read of that byte is a draw from then on (R62; log entry 12). -/
def supplyInput (addr : Word) (v : Option Byte) (s : State) : State :=
  let s' := { s with inp := s.inp.put addr.toNat v }
  if s.busy && decide (addr.toNat < s.lenL.toNat) && s.inp.read addr.toNat != v then
    { s' with
      raced := s.raced.write addr.toNat (Config.freeByte s.draws)
      draws := s.draws + 1 }
  else s'

/-- One action of the host agent (R15, R152). -/
def hostAct (a : HostAction) (s : State) : Host.Outcome State Fault Refusal :=
  match a with
  | .access acc => hostAccess acc s
  | .setInput addr v => .next (supplyInput addr v s)
  | .reset => .next (resetBlock s)

/-- One turn of the sequencer: while BUSY = 1 it executes decode(UROM[UPC]) (R135), an ILLEGAL word being a model fault (R68);
while BUSY = 0 it takes no step, so the turn passes and nothing changes (R23; log entry 2). -/
def sequencerTurn (s : State) : Host.Outcome State Fault Refusal :=
  if s.busy then
    match decodeUop (fetchWord s) with
    | .ok i => exec i s
    | .error _ => raiseModelFault .illegalUop
  else .next s

/-- The turn that is due, and the state with that turn taken off the schedule (log entry 1). -/
def takeTurn (s : State) : Turn × State :=
  match s.schedule with
  | [] => (.sequencer, s)
  | t :: ts => (t, { s with schedule := ts })

/-- Makes a turn the next one. -/
def withTurn (t : Turn) (s : State) : State := { s with schedule := t :: s.schedule }

/-- One turn of the agent that is due. -/
def runTurn (t : Turn) (s : State) : Host.Outcome State Fault Refusal :=
  match t with
  | .sequencer => sequencerTurn s
  | .host a => hostAct a s

/-- Places a micro-operation word where the sequencer fetches next: at UPC in the ROM, with BUSY = 1 and the turn the
sequencer's (log entry 4). -/
def placeUop (w : Byte) (s : State) : State :=
  withTurn .sequencer { s with urom := s.urom.set s.upc.toNat w s.upc.isLt, busy := true }

end Sys2Proof.Machine
end

