-- ==== Sys2Proof/Machine/Step.lean ====
section
/-! DEFINITION. One step of the whole machine: the agent whose turn is due takes it. -/

namespace Sys2Proof.Machine

/-- One step: a micro-operation of the sequencer (R17) or one host action (R15). -/
def step (s : State) : Host.Outcome State Fault Refusal :=
  runTurn (takeTurn s).1 (takeTurn s).2

/-- s with the opcode-table word placed so that the very next step runs it: a micro-operation word at UPC in the ROM with
the sequencer running, or a host write of CTRL with the word as data (log entries 4, 5 and 19). -/
def State.withFetchWord (s : State) (nbits w : Nat) : State :=
  match tableCode nbits w with
  | .uop b => placeUop b s
  | .ctrl data => withTurn (.host (.access (.write 0 64 data))) s

end Sys2Proof.Machine
end

