-- ==== Sys2Proof/Machine/Digest.lean ====
section
/-! DEFINITION. The function the block computes, `rainbow` (R136), written from that rule and not from the machine's
steps. It shares only what R136 names: A, B, TAILMAP and the little-endian conversions. -/

namespace Sys2Proof.Machine

/-- The result of the digest function: 32 output bytes and first4. -/
structure Digest where
  out    : Vector Byte 32
  first4 : Half
  deriving DecidableEq, Repr

/-- The input bytes from an address on, n of them. -/
def inputSlice (input : List Byte) (a n : Nat) : List Byte := (input.drop a).take n

/-- Step 3 of R136, one iteration a unit of fuel: the state words, `cur` and `rem` when the loop ends. -/
def rainbowBlocks (k : MixConst) (seed : Word) (input : List Byte) :
    (fuel cur rem : Nat) → (inner : Bool) → Lanes → Lanes × Nat × Nat
  | 0, cur, rem, _, h => (h, cur, rem)
  | fuel + 1, cur, rem, inner, h =>
    if 16 ≤ rem then
      let g1 := leWord (inputSlice input cur 8)
      let g2 := leWord (inputSlice input (cur + 8) 8)
      let h' := absorbWords h g1 g2
      rainbowBlocks k seed input fuel (cur + 16) (rem - 16) (!inner)
        (if inner then mixB k seed h' else mixA k h')
    else (h, cur, rem)

/-- Step 5 of R136: every row of TAILMAP whose index is below `rem` adds its byte. -/
def rainbowTail (input : List Byte) (cur rem : Nat) (h : Lanes) : Lanes :=
  tailMap.foldl (fun h e =>
    if e.index < rem then h.add e.lane (e.value (input.getD (cur + e.index) 0)) else h) h

/-- Step 6 of R136: A; B(seed); A. -/
def rainbowCore (k : MixConst) (seed : Word) (h : Lanes) : Lanes :=
  mixA k (mixB k seed (mixA k h))

/-- Steps 1 to 10 of R136. -/
def rainbow (k : MixConst) (size : Half) (input : List Byte) (seed : Word) : Digest :=
  let n := input.length
  let h := initLanes seed (BitVec.ofNat 64 n)
  let (h, cur, rem) := rainbowBlocks k seed input n 0 n false h
  let h := mixB k seed h
  let h := rainbowTail input cur rem h
  let h := rainbowCore k seed h
  let out := outWrite zeroOut 0 (squeezeWord h)
  let out :=
    if size = 128 then
      let h := mixA k h
      outWrite out 8 (squeezeWord h)
    else if size = 256 then
      let h := mixA k h
      let out := outWrite out 8 (squeezeWord h)
      let h := rainbowCore k seed h
      let out := outWrite out 16 (squeezeWord h)
      let h := mixA k h
      outWrite out 24 (squeezeWord h)
    else out
  ⟨out, first4 out⟩

end Sys2Proof.Machine
end

