-- ==== Sys2Proof/Safety.lean ====
section
/-! DEFINITION. What statements about runs are said in: the invariant of the sequencer, a supplied input, and the number of
steps of a run. -/

namespace Sys2Proof.Machine

/-- The sequencer's invariant. It holds at reset and every step keeps it; it rules out the states no run reaches.
- stores are in canonical form, and UROM is its fixed image (R29);
- SCLS is 0, 1 or 2 (R27); BUSY and DONE never hold together (R28);
- during a run the parameter cells are written (R142), UPC is at most 18 (R22), after INIT CUR + REM = LEN_L with CUR a
  multiple of 16 (R25, R26) and PH the parity of the blocks absorbed (R106), and after BLOCK has exited REM < 16 (R26). -/
structure SeqInv (s : State) : Prop where
  inp_wf   : s.inp.wf = true
  raced_wf : s.raced.wf = true
  urom_eq  : s.urom = uromImage
  scls_le  : s.scls.toNat ≤ 2
  not_both : ¬ (s.busy = true ∧ s.done = true)
  written  : s.busy = true → s.size.isSome = true ∧ s.seed.isSome = true ∧ s.length.isSome = true
  upc_le   : s.busy = true → s.upc.toNat ≤ 18
  cursor   : s.busy = true → 1 ≤ s.upc.toNat →
    s.cur.toNat + s.rem.toNat = s.lenL.toNat ∧ s.cur.toNat % 16 = 0
  phase    : s.busy = true → 1 ≤ s.upc.toNat → s.ph = decide (s.cur.toNat / 16 % 2 = 1)
  rem_lt   : s.busy = true → 2 ≤ s.upc.toNat → s.rem.toNat < 16

/-- IN holds the given bytes at addresses 0 on (R137: In(a) = input[a] for every a < n). -/
def Supplies (s : State) (input : List Byte) : Prop :=
  ∀ a, (ha : a < input.length) → s.inp.read a = some input[a]

/-- The number of sequencer steps of a run, from INIT to DONE, for a size class and a number of full blocks (R132). -/
def runSteps (cls : BitVec 2) (k : Nat) : Nat :=
  if cls = 1 then k + 13 else if cls = 2 then k + 19 else k + 10

/-- What a run is made of: the state a host's register accesses during the run cannot touch. -/
structure RunView where
  h     : Lanes
  out   : Vector Byte 32
  upc   : BitVec 5
  ph    : Bool
  cur   : Word
  rem   : Word
  seedL : Word
  lenL  : Word
  scls  : BitVec 2
  busy  : Bool
  done  : Bool
  urom  : Vector Byte 32
  inp   : Memory
  raced : Memory
  deriving DecidableEq, Repr

/-- The run's part of a state. -/
def State.runView (s : State) : RunView :=
  ⟨s.h, s.out, s.upc, s.ph, s.cur, s.rem, s.seedL, s.lenL, s.scls, s.busy, s.done, s.urom, s.inp, s.raced⟩

/-- The same outcome with its next state, if it has one, changed by f. -/
def mapNext (f : State → State) : Host.Outcome State Fault Refusal → Host.Outcome State Fault Refusal
  | .next s => .next (f s)
  | .fault r => .fault r
  | .refused r => .refused r

end Sys2Proof.Machine
end

