-- ==== Sys2Proof/Certificates/Slice0/Obligations.lean ====
section
/-! DEFINITION. The statements for the provers. Each docstring names the rules of spec/ the statement comes from; where a
clause rests on the model's own choice it names the log entry. -/

open Sys2Proof Sys2Proof.Machine

/-! ### Encoding -/

/-- R66: the decoder yields an operation for exactly the 14 words of R65, and none for the other 242. -/
def Obligations.DecoderAcceptsExactlyTheLegalWords : Prop :=
  ∀ (w : Byte) (i : Instr), decodeUop w = .ok i ↔
    (w, i) ∈ [(0x10#8, Instr.init), (0x20#8, .block), (0x30#8, .mixa), (0x40#8, .mixb), (0x50#8, .tail),
      (0x60#8, .sqz0), (0x61#8, .sqz1), (0x62#8, .sqz2), (0x63#8, .sqz3),
      (0x70#8, .chk0), (0x71#8, .chk1), (0x72#8, .chk2), (0x73#8, .chk3), (0x80#8, .done)]

/-- Sanity: one word of each family, written out from R63 and R65, decodes to its operation, and three ILLEGAL words are
refused. R66 has the one result ILLEGAL; the three names are the model's (log entry 23). -/
def Obligations.SampleWordsDecode : Prop :=
  decode (.uop 0b00010000) = .ok .init ∧ decode (.uop 0b01000000) = .ok .mixb ∧
  decode (.uop 0b01010000) = .ok .tail ∧ decode (.uop 0b01100010) = .ok .sqz2 ∧
  decode (.uop 0b01110011) = .ok .chk3 ∧ decode (.uop 0b10000000) = .ok .done ∧
  decode (.ctrl 1) = .ok .start ∧
  decode (.uop 0b01101100) = .error .reservedBits ∧ decode (.uop 0b00100011) = .error .reservedArg ∧
  decode (.uop 0b10010000) = .error .illegalOp

/-- 30_encoding.md section 2, and R31 for CTRL: a word that decodes is the encoding of what it decodes to; for START, the
word is CTRL data with bit 0 set, whatever its ignored bits. -/
def Obligations.DecodedWordEncodesBack : Prop :=
  ∀ (c : Code) (i : Instr), decode c = .ok i →
    (i ≠ .start → encode i = c) ∧ (i = .start ↔ ∃ d : Word, c = .ctrl d ∧ d.getLsbD 0 = true)

/-! ### Datapath and normalizer -/

/-- The last bullet of R10: bit i of rotr64(x, n) is bit (i + n) mod 64 of x. -/
def Obligations.RotationMovesEveryBit : Prop :=
  ∀ (x : Word) (n i : Nat), 1 ≤ n → n ≤ 63 → i < 64 →
    (rotr64 x n).getLsbD i = x.getLsbD ((i + n) % 64)

/-- 41_mixing.md section 4 (R95, an inference the spec marks as its own): with odd multipliers primitive A is a permutation
of the four-word state, and primitive B with any seed is one too; this instance's multipliers are odd (R7). -/
def Obligations.PrimitivesArePermutations : Prop :=
  (∀ k : MixConst, k.Odd → Function.Bijective (mixA k)) ∧
  (∀ (k : MixConst) (seed : Word), k.Odd → Function.Bijective (mixB k seed)) ∧
  Config.mixConst.Odd

/-- 40_normalizer.md (R84, an inference the spec marks as its own): reading back the 8 bytes OutWrite wrote gives the value
written, and the bytes of an assembled word are the bytes it was assembled from. -/
def Obligations.OutWriteAndReadAreInverse : Prop :=
  (∀ (o : Vector Byte 32) (j : Nat) (v : Word), j < 4 → outWord (outWrite o (8 * j) v) j = v) ∧
  (∀ (bs : List Byte) (k : Nat) (hk : k < bs.length), bs.length = 8 → byteOf (leWord bs) k = bs[k])

/-- R80: READ64 at a is defined only when all eight bytes are present; byte k of the word is then the byte at a + k. -/
def Obligations.InputWordIsLittleEndian : Prop :=
  ∀ (s : State) (a : Nat),
    (∀ b : Nat → Byte, (∀ k, k < 8 → readByte s (a + k) = some (b k)) →
      ∃ v, readWord s a = some v ∧ ∀ k, k < 8 → v.extractLsb' (8 * k) 8 = b k) ∧
    ((∃ k, k < 8 ∧ readByte s (a + k) = none) → readWord s a = none)

/-! ### Instructions: what each does, what it leaves unchanged, and that it completes -/

/-- R102 (with R83): INIT completes in every state; OUT is zero, H, CUR, REM and PH are as the rule says, UPC advances, and
nothing else changes. -/
def Obligations.InitSetsUpTheRun : Prop :=
  ∀ s : State, ∃ t, exec .init s = .next t ∧
    (∀ (k : Nat) (hk : k < 32), t.out[k] = 0) ∧
    t = { s with
      out := t.out
      h := ⟨s.seedL + s.lenL + 1, s.seedL + s.lenL + 3, s.seedL + s.lenL + 5, s.seedL + s.lenL + 7⟩
      cur := 0
      rem := s.lenL
      ph := false
      upc := s.upc + 1 }

/-- R103: BLOCK with REM >= 16 and its 16 input bytes present absorbs them, mixes by PH, and stays at its address; with an
absent byte it is stuck; with REM < 16 it only advances UPC. Nothing else changes. -/
def Obligations.BlockAbsorbsOrExits : Prop :=
  ∀ s : State,
    (∀ b : Nat → Byte, 16 ≤ s.rem.toNat → (∀ i, i < 16 → readByte s (s.cur.toNat + i) = some (b i)) →
      exec .block s = .next { s with
        h := (if s.ph then mixB Config.mixConst s.seedL else mixA Config.mixConst)
          ⟨s.h.h0 - leWord [b 0, b 1, b 2, b 3, b 4, b 5, b 6, b 7],
           s.h.h1 + leWord [b 0, b 1, b 2, b 3, b 4, b 5, b 6, b 7],
           s.h.h2 + leWord [b 8, b 9, b 10, b 11, b 12, b 13, b 14, b 15],
           s.h.h3 - leWord [b 8, b 9, b 10, b 11, b 12, b 13, b 14, b 15]⟩
        ph := !s.ph
        cur := s.cur + 16
        rem := s.rem - 16 }) ∧
    (16 ≤ s.rem.toNat → (∃ i, i < 16 ∧ readByte s (s.cur.toNat + i) = none) →
      exec .block s = .refused .absentInput) ∧
    (s.rem.toNat < 16 → exec .block s = .next { s with upc := s.upc + 1 })

/-- R89 (with R13): MIXA completes in every state; lanes 1 and 3 read the new values of lanes 0 and 2; only H and UPC
change. -/
def Obligations.MixaMixesAllFourWords : Prop :=
  ∀ s : State,
    let k := Config.mixConst
    let a := rotr64 (s.h.h0 * k.Q) 23 * k.P
    let b := rotr64 ((s.h.h1 ^^^ a) * k.S) 29 * k.R
    let c := rotr64 (s.h.h2 * k.U) 31 * k.T
    let d := rotr64 ((s.h.h3 ^^^ c) * k.W) 37 * k.V
    exec .mixa s = .next { s with h := ⟨a, b, c, d⟩, upc := s.upc + 1 }

/-- R91 (with R13): MIXB completes in every state; it reads and writes words 1 and 2 only, with the latched seed; only they
and UPC change. -/
def Obligations.MixbMixesWordsOneAndTwo : Prop :=
  ∀ s : State,
    let k := Config.mixConst
    let a := rotr64 (s.h.h1 * k.V) 23 * k.W
    let b := rotr64 ((s.h.h2 ^^^ (a + s.seedL)) * k.R) 23 * k.S
    exec .mixb s = .next { s with h := ⟨s.h.h0, a, b, s.h.h3⟩, upc := s.upc + 1 }

/-- R112 and R113: TAIL with REM < 16 and its bytes present adds each byte, zero-extended and shifted, into its lane, and
changes only H and UPC; with a byte absent it is stuck; with REM >= 16 it raises TAIL_REM. -/
def Obligations.TailAddsEveryByteIntoItsLane : Prop :=
  ∀ s : State,
    (∀ b : Nat → Byte, s.rem.toNat < 16 →
      (∀ i, i < s.rem.toNat → readByte s (s.cur.toNat + i) = some (b i)) →
      let z := fun i => if i < s.rem.toNat then (b i).setWidth 64 else 0#64
      exec .tail s = .next { s with
        h := ⟨s.h.h0 + (z 14 <<< 56) + (z 10 <<< 24) + (z 6 <<< 48) + (z 2 <<< 16),
              s.h.h1 + (z 13 <<< 48) + (z 9 <<< 16) + (z 5 <<< 40) + (z 1 <<< 8),
              s.h.h2 + (z 12 <<< 40) + (z 8 <<< 8) + (z 4 <<< 32) + z 0,
              s.h.h3 + (z 11 <<< 32) + z 7 + (z 3 <<< 24)⟩
        upc := s.upc + 1 }) ∧
    (s.rem.toNat < 16 → (∃ i, i < s.rem.toNat ∧ readByte s (s.cur.toNat + i) = none) →
      exec .tail s = .refused .absentInput) ∧
    (16 ≤ s.rem.toNat → exec .tail s = .fault .tailRem)

/-- R114 (an inference the spec marks as its own): TAIL's result does not depend on the order in which the rows of TAILMAP
are applied. -/
def Obligations.TailOrderDoesNotMatter : Prop :=
  ∀ (s : State) (h : Lanes) (es : List TailEntry), es.Perm tailMap → absorbTail s es h = absorbTail s tailMap h

/-- R119: SQZ j completes in every state; OUT[8j..8j+7] become the little-endian bytes of (0 - H[2]) - H[3], every other
byte of OUT stays, UPC advances, and nothing else changes. -/
def Obligations.SqueezeWritesOneSlot : Prop :=
  ∀ (s : State) (i : Instr) (j : Nat),
    (i, j) ∈ [(Instr.sqz0, 0), (.sqz1, 1), (.sqz2, 2), (.sqz3, 3)] →
    ∃ t, exec i s = .next t ∧
      (∀ (k : Nat) (hk : k < 32), t.out[k] =
        if 8 * j ≤ k ∧ k < 8 * j + 8 then ((0 - s.h.h2) - s.h.h3).extractLsb' (8 * (k - 8 * j)) 8 else s.out[k]) ∧
      t = { s with out := t.out, upc := s.upc + 1 }

/-- R121: CHK c completes in every state; it jumps to address 18 when SCLS < c, else advances; only UPC changes. -/
def Obligations.CheckJumpsBelowItsThreshold : Prop :=
  ∀ (s : State) (i : Instr) (c : Nat),
    (i, c) ∈ [(Instr.chk0, 0), (.chk1, 1), (.chk2, 2), (.chk3, 3)] →
    exec i s = .next { s with upc := if s.scls.toNat < c then 18 else s.upc + 1 }

/-- R69 (an inference the spec marks as its own): CHK 0 is a no-op; CHK 3 always jumps, for every size class START latches. -/
def Obligations.CheckZeroAndThreeAreFixed : Prop :=
  ∀ s : State, exec .chk0 s = .next { s with upc := s.upc + 1 } ∧
    (s.scls.toNat ≤ 2 → exec .chk3 s = .next { s with upc := 18 })

/-- R122: DONE completes in every state; BUSY becomes 0 and DONE 1, STATUS is 0x2, UPC and everything else stay. -/
def Obligations.DoneEndsTheRun : Prop :=
  ∀ s : State, ∃ t, exec .done s = .next t ∧ t = { s with busy := false, done := true } ∧ statusWord t = 2

/-- 42_driver_blocks.md section 1 (R100, R101): START while BUSY = 1 does nothing; while BUSY = 0 with a parameter cell empty it
raises UNWRITTEN_PARAM; otherwise it latches the seed, the length and the size class (R14), sets UPC 0, BUSY 1 and DONE 0, and
changes nothing else of the block. That the model's own record of raced bytes starts empty is the model's choice (log entry 12). -/
def Obligations.StartLatchesTheParameters : Prop :=
  ∀ s : State,
    (s.busy = true → exec .start s = .next s) ∧
    (s.busy = false → (s.size = none ∨ s.seed = none ∨ s.length = none) → exec .start s = .fault .unwrittenParam) ∧
    (∀ (size : Half) (seed length : Word), s.busy = false → s.size = some size → s.seed = some seed →
      s.length = some length →
      exec .start s = .next { s with
        seedL := seed
        lenL := length
        scls := if size = 128 then 1 else if size = 256 then 2 else 0
        upc := 0
        busy := true
        done := false
        raced := [] })

/-! ### One step of the machine -/

/-- 10_state.md section 3 and 44_finalize_squeeze.md section 6: on the sequencer's turn (the schedule is empty or names it),
while BUSY = 1, step is exec of what UROM[UPC] decodes to, with the turn taken off the schedule, and an ILLEGAL word raises
ILLEGAL_UOP; while BUSY = 0 the sequencer takes no step, and the turn passes with nothing else changed (log entries 1, 2). -/
def Obligations.StepRunsTheDecodedWord : Prop :=
  ∀ s : State, (s.schedule = [] ∨ ∃ ts, s.schedule = .sequencer :: ts) →
    (∀ i, s.busy = true → decodeUop (s.urom[s.upc.toNat]'s.upc.isLt) = .ok i →
      step s = exec i { s with schedule := s.schedule.tail }) ∧
    (∀ e, s.busy = true → decodeUop (s.urom[s.upc.toNat]'s.upc.isLt) = .error e → step s = .fault .illegalUop) ∧
    (s.busy = false → step s = .next { s with schedule := s.schedule.tail })

/-- 00_scope.md section 5 (R15) and R142: on the host's turn, step is the host's action on the state with the turn taken off the
schedule (log entry 1), and no micro-operation. -/
def Obligations.StepRunsTheHostAction : Prop :=
  ∀ (s : State) (a : HostAction) (ts : List Turn), s.schedule = .host a :: ts →
    step s = hostAct a { s with schedule := ts }

/-! ### The host's register interface -/

/-- R31: a write to CTRL is START when data bit 0 is 1 and nothing otherwise, bits 63:1 being ignored; a read returns 0. -/
def Obligations.CtrlStartsOnBitZeroOnly : Prop :=
  ∀ s : State,
    (∀ d : Word, d.getLsbD 0 = true → hostAct (.access (.write 0x00 64 d)) s = exec .start s) ∧
    (∀ d : Word, d.getLsbD 0 = false → hostAct (.access (.write 0x00 64 d)) s = .next s) ∧
    hostAct (.access (.read 0x00 64)) s = .next { s with readData := some 0 }

/-- R32: a read of STATUS returns BUSY in bit 0, DONE in bit 1 and 0 above, changing nothing else; a write is ignored; right
after reset it reads 0. -/
def Obligations.StatusShowsBusyAndDone : Prop :=
  (∀ s : State, ∃ v : Word, hostAct (.access (.read 0x08 64)) s = .next { s with readData := some v } ∧
    v.getLsbD 0 = s.busy ∧ v.getLsbD 1 = s.done ∧ (∀ i, 2 ≤ i → v.getLsbD i = false)) ∧
  (∀ (s : State) (d : Word), hostAct (.access (.write 0x08 64 d)) s = .next s) ∧
  hostAct (.access (.read 0x08 64)) State.reset = .next { State.reset with readData := some 0 }

/-- R33 to R35 (with R14): SIZE keeps the low 32 bits written and reads them back zero-extended; SEED and LENGTH keep and read
back the 64 bits written; 128 and 256 select classes 1 and 2 and every other size class 0; none of the three has a value
after reset. -/
def Obligations.ParameterRegistersHoldWhatIsWritten : Prop :=
  (∀ (s : State) (d : Word),
    hostAct (.access (.write 0x10 64 d)) s = .next { s with size := some (d.setWidth 32) } ∧
    hostAct (.access (.write 0x18 64 d)) s = .next { s with seed := some d } ∧
    hostAct (.access (.write 0x20 64 d)) s = .next { s with length := some d }) ∧
  (∀ (s : State) (v : Half), s.size = some v →
    hostAct (.access (.read 0x10 64)) s = .next { s with readData := some (v.setWidth 64) }) ∧
  (∀ (s : State) (v : Word), s.seed = some v →
    hostAct (.access (.read 0x18 64)) s = .next { s with readData := some v }) ∧
  (∀ (s : State) (v : Word), s.length = some v →
    hostAct (.access (.read 0x20 64)) s = .next { s with readData := some v }) ∧
  (sizeClass 128 = 1 ∧ sizeClass 256 = 2 ∧ ∀ v : Half, v ≠ 128 → v ≠ 256 → sizeClass v = 0) ∧
  (State.reset.size = none ∧ State.reset.seed = none ∧ State.reset.length = none)

/-- 10_state.md section 4 (R40): a read of an empty parameter cell returns a drawn value and leaves the cell empty. For SIZE the
data is the low 32 bits of the draw, and bits 63:32 read 0 (log entry 16). -/
def Obligations.EmptyParameterReadIsDrawn : Prop :=
  ∀ s : State,
    (s.seed = none → hostAct (.access (.read 0x18 64)) s =
      .next { s with readData := some (Config.freeWord s.draws), draws := s.draws + 1 }) ∧
    (s.length = none → hostAct (.access (.read 0x20 64)) s =
      .next { s with readData := some (Config.freeWord s.draws), draws := s.draws + 1 }) ∧
    (s.size = none → hostAct (.access (.read 0x10 64)) s =
      .next { s with
        readData := some (((Config.freeWord s.draws).setWidth 32).setWidth 64)
        draws := s.draws + 1 })

/-- 10_state.md section 4 (R36, R37) with section 6 (R44): once BUSY = 0 and DONE = 1 (log entry 10), FIRST4 reads output bytes 0
to 3 zero-extended and OUTj reads output bytes 8j to 8j+7, little-endian, changing nothing else; writes are ignored always;
otherwise the reads are drawn. -/
def Obligations.OutputRegistersShowTheDigest : Prop :=
  (∀ s : State, s.busy = false → s.done = true →
    (∃ v : Word, hostAct (.access (.read 0x28 64)) s = .next { s with readData := some v } ∧
      v = ((s.out[3] ++ s.out[2] ++ s.out[1] ++ s.out[0] : BitVec 32)).setWidth 64) ∧
    (∀ (off : BitVec 7) (j : Nat), (off, j) ∈ [(0x30#7, 0), (0x38#7, 1), (0x40#7, 2), (0x48#7, 3)] →
      ∃ v : Word, hostAct (.access (.read off 64)) s = .next { s with readData := some v } ∧
        ∀ (k : Nat) (_ : k < 8) (hb : 8 * j + k < 32), v.extractLsb' (8 * k) 8 = s.out[8 * j + k])) ∧
  (∀ (s : State) (off : BitVec 7), off ∈ [0x28#7, 0x30, 0x38, 0x40, 0x48] →
    (∀ d : Word, hostAct (.access (.write off 64 d)) s = .next s) ∧
    (s.busy = true ∨ s.done = false → hostAct (.access (.read off 64)) s =
      .next { s with readData := some (Config.freeWord s.draws), draws := s.draws + 1 }))

/-- 10_state.md section 5 (R43): what a host read returns depends on no hidden state: two states that agree on the status bits, the
parameter cells and the next draw, and on OUT when BUSY = 0 and DONE = 1, return the same data to every admitted read. -/
def Obligations.HostReadsSeeNoHiddenState : Prop :=
  ∀ (s s' : State) (off : BitVec 7), off.toNat % 8 = 0 →
    s.busy = s'.busy → s.done = s'.done → s.size = s'.size → s.seed = s'.seed → s.length = s'.length →
    s.draws = s'.draws → (s.busy = false → s.done = true → s.out = s'.out) →
    ∃ t t', hostAct (.access (.read off 64)) s = .next t ∧ hostAct (.access (.read off 64)) s' = .next t' ∧
      t.readData = t'.readData ∧ t.readData.isSome = true

/-- R38: at the reserved offsets a read is drawn and a write changes nothing. -/
def Obligations.ReservedOffsetsDrawAndIgnore : Prop :=
  ∀ (s : State) (off : BitVec 7), 0x50 ≤ off.toNat → off.toNat % 8 = 0 →
    (∀ d : Word, hostAct (.access (.write off 64 d)) s = .next s) ∧
    hostAct (.access (.read off 64)) s =
      .next { s with readData := some (Config.freeWord s.draws), draws := s.draws + 1 }

/-- 10_state.md section 4 (R39): a host access is refused exactly when it is not 64 bits wide or its offset is not a multiple of 8. -/
def Obligations.OnlyAlignedFullWidthAccessesAreAdmitted : Prop :=
  ∀ (s : State) (a : HostAccess),
    ((a.width ≠ 64 ∨ a.offset.toNat % 8 ≠ 0) ↔ hostAct (.access a) s = .refused .badHostAccess)

/-- 20_memory.md section 3 (R53): an admitted host read changes nothing but the data it returns and the model's count of draws. -/
def Obligations.HostReadsHaveNoSideEffect : Prop :=
  ∀ (s : State) (off : BitVec 7), off.toNat % 8 = 0 →
    ∃ t, hostAct (.access (.read off 64)) s = .next t ∧ t = { s with readData := t.readData, draws := t.draws }

/-- 42_driver_blocks.md section 1 and 70_reset_and_hazards.md section 3 (R101, R161): while BUSY = 1 every admitted host access
completes and leaves the run as it is: H, OUT, UPC, PH, CUR, REM, the latches, BUSY, DONE, UROM and the input. -/
def Obligations.HostAccessesDoNotDisturbTheRun : Prop :=
  ∀ (s : State) (a : HostAccess), s.busy = true → a.wf = true →
    ∃ t, hostAct (.access a) s = .next t ∧ t.runView = s.runView

/-! ### The input -/

/-- 20_memory.md sections 2 and 5 (R47, R62; log entry 12): setting an input byte changes that byte of IN and no other. If it changes
a byte below LEN_L while BUSY = 1, the run reads a drawn value there; a run's read of every other byte is as before. The
registers and OUT stay. -/
def Obligations.InputChangesDuringARunAreDrawn : Prop :=
  ∀ (s : State) (addr : Word) (v : Option Byte),
    ∃ t, hostAct (.setInput addr v) s = .next t ∧
      t = { s with inp := t.inp, raced := t.raced, draws := t.draws } ∧
      t.inp.read addr.toNat = v ∧
      (∀ a, a ≠ addr.toNat → t.inp.read a = s.inp.read a ∧ readByte t a = readByte s a) ∧
      (s.busy = true → addr.toNat < s.lenL.toNat → s.inp.read addr.toNat ≠ v →
        readByte t addr.toNat = some (Config.freeByte s.draws) ∧ t.draws = s.draws + 1) ∧
      (s.busy = false ∨ s.lenL.toNat ≤ addr.toNat ∨ s.inp.read addr.toNat = v →
        t.raced = s.raced ∧ t.draws = s.draws)

/-! ### Rules over the whole machine -/

/-- R27: the latches are written at START only: a step changes them only as an accepted START does, with the parameters the
cells hold (R14 for the class); a reset is the one other event, and it leaves no run (R152). -/
def Obligations.LatchesAreWrittenByStartOnly : Prop :=
  ∀ s t : State, step s = .next t →
    (t.seedL = s.seedL ∧ t.lenL = s.lenL ∧ t.scls = s.scls) ∨
    (s.busy = false ∧ t.busy = true ∧ s.seed = some t.seedL ∧ s.length = some t.lenL ∧
      (∃ z, s.size = some z ∧ t.scls = sizeClass z) ∧
      ∃ d ts, s.schedule = .host (.access (.write 0x00 64 d)) :: ts ∧ d.getLsbD 0 = true) ∨
    (∃ ts, s.schedule = .host .reset :: ts)

/-- 10_state.md sections 3 and 6 (R28, R44): only START sets BUSY (clearing DONE) and only the DONE micro-operation sets DONE
(clearing BUSY); nothing else writes them but reset (R44), which clears both. -/
def Obligations.StatusBitsAreWrittenByStartAndDoneOnly : Prop :=
  ∀ s t : State, step s = .next t →
    (t.busy = s.busy ∧ t.done = s.done) ∨
    (t.busy = true ∧ t.done = false ∧ s.busy = false ∧
      ∃ d ts, s.schedule = .host (.access (.write 0x00 64 d)) :: ts ∧ d.getLsbD 0 = true) ∨
    (t.busy = false ∧ t.done = true ∧ s.busy = true ∧ decodeUop (s.urom[s.upc.toNat]'s.upc.isLt) = .ok .done ∧
      (s.schedule = [] ∨ ∃ ts, s.schedule = .sequencer :: ts)) ∨
    (t.busy = false ∧ t.done = false ∧ ∃ ts, s.schedule = .host .reset :: ts)

/-- 10_state.md section 3 (R29): no step writes UROM. And the block never writes IN (20_memory.md section 2): it changes only on
the host's own turn; that a reset keeps it is the model's choice (log entry 18). -/
def Obligations.RomIsFixedAndOnlyTheHostSetsInput : Prop :=
  ∀ s t : State, step s = .next t →
    t.urom = s.urom ∧
    (t.inp = s.inp ∨ ∃ addr v ts, s.schedule = .host (.setInput addr v) :: ts)

/-- 10_state.md section 3 (R24): no operation but INIT and BLOCK reads or writes PH: with PH set to p the operation does the same,
and PH stays p. -/
def Obligations.PhaseBelongsToInitAndBlock : Prop :=
  ∀ (i : Instr) (s : State) (p : Bool), i ≠ .init → i ≠ .block →
    exec i { s with ph := p } = mapNext (fun t => { t with ph := p }) (exec i s)

/-- 10_state.md section 3 (R27): every operation of a run reads the latches and never SIZE, SEED or LENGTH: with any contents in
those cells the operation does the same, and the cells stay. -/
def Obligations.OperationsNeverReadTheHostCells : Prop :=
  ∀ (i : Instr) (s : State) (z : Option Half) (sd ln : Option Word), i ≠ .start →
    exec i { s with size := z, seed := sd, length := ln } =
      mapNext (fun t => { t with size := z, seed := sd, length := ln }) (exec i s)

/-! ### Reset and the invariant -/

/-- 70_reset_and_hazards.md section 1 and 10_state.md section 6: on the reset action BUSY and DONE become 0 and SIZE, SEED and LENGTH
empty, as they are in State.reset; UROM and IN stay. The values R44 leaves out are those of State.reset (model's choice, log
entries 6 and 18). -/
def Obligations.ResetMakesTheBlockIdle : Prop :=
  (∀ (s : State) (ts : List Turn), s.schedule = .host .reset :: ts →
    ∃ t, step s = .next t ∧ t.busy = false ∧ t.done = false ∧ t.size = none ∧ t.seed = none ∧ t.length = none ∧
      t.urom = s.urom ∧ t.inp = s.inp ∧ t.schedule = ts ∧
      t = { State.reset with
        urom := s.urom, inp := s.inp, schedule := ts, readData := s.readData, draws := s.draws }) ∧
  State.reset.busy = false ∧ State.reset.done = false ∧ State.reset.urom = uromImage

/-- The invariant SeqInv holds right after reset (10_state.md section 6). R44 gives SCLS no reset value: that it is at most 2
there rests on the model's 0 (log entry 6). -/
def Obligations.InvariantHoldsAtReset : Prop := SeqInv State.reset

/-- Every step keeps the invariant SeqInv (10_state.md section 3): the stores' canonical form, UROM's image, the size class, the
status bits, the written parameters, UPC's range, CUR + REM = LEN_L, PH's parity, and REM < 16 after the block loop. On the reset turn the
clause on SCLS rests on the model's 0 (log entries 6 and 18). -/
def Obligations.StepKeepsTheInvariant : Prop :=
  ∀ s t : State, SeqInv s → step s = .next t → SeqInv t

/-- 44_finalize_squeeze.md section 5 and 43_tail.md (R131, R116, inferences the spec marks as its own): under the invariant no step
raises ILLEGAL_UOP or TAIL_REM, and UNWRITTEN_PARAM is raised only by a host write of START while BUSY = 0 and a parameter cell is
empty. -/
def Obligations.FixedRomNeverFaults : Prop :=
  ∀ s : State, SeqInv s →
    step s ≠ .fault .illegalUop ∧ step s ≠ .fault .tailRem ∧
    (step s = .fault .unwrittenParam →
      s.busy = false ∧ (s.size = none ∨ s.seed = none ∨ s.length = none) ∧
      ∃ d ts, s.schedule = .host (.access (.write 0x00 64 d)) :: ts ∧ d.getLsbD 0 = true)

/-- 44_finalize_squeeze.md section 5 (R133, an inference the spec marks as its own): under the invariant, on the sequencer's turn with
every input byte below LEN_L readable, the step completes. -/
def Obligations.SequencerIsNeverStuckWithItsInput : Prop :=
  ∀ s : State, SeqInv s → (s.schedule = [] ∨ ∃ ts, s.schedule = .sequencer :: ts) →
    (∀ a, a < s.lenL.toNat → (readByte s a).isSome = true) → ∃ t, step s = .next t

/-! ### The run and the function -/

/-- 42_driver_blocks.md section 3 (R104, R105, inferences the spec marks as its own): at BLOCK's address with REM = 16k + r, r < 16,
and those 16k bytes readable, k steps absorb k blocks and one more leaves the loop: CUR has grown by 16k, REM is r, PH has been
inverted k times, UPC is 2. -/
def Obligations.BlockLoopRunsOncePerBlock : Prop :=
  ∀ (s : State) (k r : Nat), s.urom = uromImage → s.busy = true → s.schedule = [] → s.upc = 1 →
    r < 16 → s.rem.toNat = 16 * k + r → s.cur.toNat + 16 * k < 2 ^ 64 →
    (∀ i, i < 16 * k → (readByte s (s.cur.toNat + i)).isSome = true) →
    ∃ t, core.run (k + 1) s = .next t ∧ t.upc = 2 ∧ t.rem.toNat = r ∧ t.cur.toNat = s.cur.toNat + 16 * k ∧
      t.ph = (s.ph ^^ decide (k % 2 = 1)) ∧ t.out = s.out ∧ t.busy = true

/-- 44_finalize_squeeze.md section 6 (R137 and R132, inferences the spec marks as its own): a host that has written SIZE, SEED and
LENGTH = n, has supplied the n input bytes, and writes START while BUSY = 0, gets after 1 step and the run's k + 10, k + 13 or
k + 19 steps a state with BUSY = 0, DONE = 1, and in OUT and FIRST4 the value of the function rainbow of R136. -/
def Obligations.DigestRunComputesRainbow : Prop :=
  ∀ (s : State) (size : Half) (seed : Word) (input : List Byte) (d : Word),
    input.length < 2 ^ 64 → s.urom = uromImage → s.busy = false →
    s.size = some size → s.seed = some seed → s.length = some (BitVec.ofNat 64 input.length) →
    Supplies s input → d.getLsbD 0 = true → s.schedule = [.host (.access (.write 0x00 64 d))] →
    ∃ t, core.run (1 + runSteps (sizeClass size) (input.length / 16)) s = .next t ∧
      t.busy = false ∧ t.done = true ∧
      t.out = (rainbow Config.mixConst size input seed).out ∧
      first4 t.out = (rainbow Config.mixConst size input seed).first4

/-- 44_finalize_squeeze.md section 4 (R128, an inference the spec marks as its own): the first 8 output bytes do not depend on the
size, and the first 16 are the same at sizes 128 and 256. -/
def Obligations.ShorterDigestIsAPrefix : Prop :=
  ∀ (k : MixConst) (input : List Byte) (seed : Word),
    (∀ (size size' : Half) (i : Nat) (hi : i < 32), i < 8 →
      (rainbow k size input seed).out[i] = (rainbow k size' input seed).out[i]) ∧
    (∀ (i : Nat) (hi : i < 32), i < 16 →
      (rainbow k 128 input seed).out[i] = (rainbow k 256 input seed).out[i])

/-- 44_finalize_squeeze.md section 4 (R126, R127, inferences the spec marks as its own): the bytes beyond the digest are 0, and a
size other than 128 and 256 gives the digest of size 64. -/
def Obligations.BytesBeyondTheDigestAreZero : Prop :=
  ∀ (k : MixConst) (size : Half) (input : List Byte) (seed : Word),
    (size ≠ 128 → size ≠ 256 → rainbow k size input seed = rainbow k 64 input seed ∧
      ∀ (i : Nat) (hi : i < 32), 8 ≤ i → (rainbow k size input seed).out[i] = 0) ∧
    (∀ (i : Nat) (hi : i < 32), 16 ≤ i → (rainbow k 128 input seed).out[i] = 0)
end

