-- ==== Sys2Proof/Laws/Memory.lean ====
section
/-! SUPPORT. The laws of the address and byte stores: read after write, frames, and the canonical form kept by every
operation. -/

namespace Sys2Proof.Machine

@[simp] theorem Memory.read_nil (a : Nat) : Memory.read [] a = none := rfl

theorem Memory.read_cons (a a' : Nat) (b : Byte) (m : Memory) :
    Memory.read ((a', b) :: m) a = if a = a' then some b else Memory.read m a := rfl

theorem Memory.read_write (m : Memory) (a a' : Nat) (b : Byte) :
    (m.write a b).read a' = if a' = a then some b else m.read a' := by
  induction m with
  | nil => rfl
  | cons c m ih =>
    obtain ⟨x, y⟩ := c
    simp only [Memory.write]
    split
    · rfl
    · split
      · subst_vars
        simp only [Memory.read_cons]
        split <;> simp_all
      · simp only [Memory.read_cons, ih]
        split <;> simp_all
        omega

theorem Memory.read_erase (m : Memory) (a a' : Nat) :
    (m.erase a).read a' = if a' = a then none else m.read a' := by
  induction m with
  | nil => simp [Memory.erase]
  | cons c m ih =>
    obtain ⟨x, y⟩ := c
    simp only [Memory.erase]
    split
    · subst_vars
      simp only [Memory.read_cons, ih]
      split <;> rfl
    · simp only [Memory.read_cons, ih]
      split <;> simp_all
      omega

/-- Every put is read back, and every other address reads as before. -/
theorem Memory.read_put (m : Memory) (a a' : Nat) (v : Option Byte) :
    (m.put a v).read a' = if a' = a then v else m.read a' := by
  cases v with
  | none => exact Memory.read_erase m a a'
  | some b => exact Memory.read_write m a a' b

theorem Memory.wfFrom_cons (lo a : Nat) (b : Byte) (m : Memory) :
    Memory.wfFrom lo ((a, b) :: m) = true ↔ lo ≤ a ∧ a < 2 ^ 64 ∧ Memory.wfFrom (a + 1) m = true := by
  simp [Memory.wfFrom, and_assoc]

theorem Memory.wfFrom_mono {lo lo' : Nat} (h : lo' ≤ lo) : ∀ {m : Memory}, Memory.wfFrom lo m = true →
    Memory.wfFrom lo' m = true
  | [], _ => rfl
  | (_, _) :: _, hm => by
    rw [Memory.wfFrom_cons] at hm ⊢
    exact ⟨by omega, hm.2⟩

theorem Memory.wfFrom_write {a : Nat} (b : Byte) (ha : a < 2 ^ 64) :
    ∀ {lo : Nat} {m : Memory}, lo ≤ a → Memory.wfFrom lo m = true → Memory.wfFrom lo (m.write a b) = true
  | lo, [], hlo, _ => (Memory.wfFrom_cons lo a b []).2 ⟨hlo, ha, rfl⟩
  | lo, (x, y) :: m, hlo, hm => by
    have hm' := (Memory.wfFrom_cons lo x y m).1 hm
    simp only [Memory.write]
    split
    · exact (Memory.wfFrom_cons ..).2 ⟨hlo, ha, (Memory.wfFrom_cons ..).2 ⟨by omega, hm'.2⟩⟩
    · split
      · subst_vars
        exact (Memory.wfFrom_cons ..).2 hm'
      · exact (Memory.wfFrom_cons ..).2
          ⟨hm'.1, hm'.2.1, Memory.wfFrom_write b ha (by omega) hm'.2.2⟩

theorem Memory.wfFrom_erase (a : Nat) :
    ∀ {lo : Nat} {m : Memory}, Memory.wfFrom lo m = true → Memory.wfFrom lo (m.erase a) = true
  | _, [], _ => rfl
  | lo, (x, y) :: m, hm => by
    have hm' := (Memory.wfFrom_cons lo x y m).1 hm
    simp only [Memory.erase]
    split
    · exact Memory.wfFrom_mono (by omega) (Memory.wfFrom_erase a hm'.2.2)
    · exact (Memory.wfFrom_cons ..).2 ⟨hm'.1, hm'.2.1, Memory.wfFrom_erase a hm'.2.2⟩

/-- Every memory operation keeps the canonical form. -/
theorem Memory.wf_write {m : Memory} {a : Nat} (b : Byte) (ha : a < 2 ^ 64) (h : m.wf = true) :
    (m.write a b).wf = true := Memory.wfFrom_write b ha (Nat.zero_le a) h

theorem Memory.wf_erase {m : Memory} (a : Nat) (h : m.wf = true) : (m.erase a).wf = true :=
  Memory.wfFrom_erase a h

theorem Memory.wf_put {m : Memory} {a : Nat} (v : Option Byte) (ha : a < 2 ^ 64) (h : m.wf = true) :
    (m.put a v).wf = true := by
  cases v with
  | none => exact Memory.wf_erase a h
  | some b => exact Memory.wf_write b ha h

@[simp] theorem Memory.wf_nil : Memory.wf [] = true := rfl

/-- The memory at reset has the canonical form. -/
theorem State.reset_inp_wf : State.reset.inp.wf = true := rfl

end Sys2Proof.Machine
end

