-- ==== Sys2Proof/Laws/State.lean ====
section
/-! SUPPORT. One lemma per field for each named update of the state, so that no proof unfolds a record update. -/

namespace Sys2Proof.Machine

@[simp] theorem State.advance_h (s : State) : (s.advance).h = s.h := rfl
@[simp] theorem State.advance_out (s : State) : (s.advance).out = s.out := rfl
@[simp] theorem State.advance_upc (s : State) : (s.advance).upc = s.upc + 1 := rfl
@[simp] theorem State.advance_ph (s : State) : (s.advance).ph = s.ph := rfl
@[simp] theorem State.advance_cur (s : State) : (s.advance).cur = s.cur := rfl
@[simp] theorem State.advance_rem (s : State) : (s.advance).rem = s.rem := rfl
@[simp] theorem State.advance_seedL (s : State) : (s.advance).seedL = s.seedL := rfl
@[simp] theorem State.advance_lenL (s : State) : (s.advance).lenL = s.lenL := rfl
@[simp] theorem State.advance_scls (s : State) : (s.advance).scls = s.scls := rfl
@[simp] theorem State.advance_busy (s : State) : (s.advance).busy = s.busy := rfl
@[simp] theorem State.advance_done (s : State) : (s.advance).done = s.done := rfl
@[simp] theorem State.advance_size (s : State) : (s.advance).size = s.size := rfl
@[simp] theorem State.advance_seed (s : State) : (s.advance).seed = s.seed := rfl
@[simp] theorem State.advance_length (s : State) : (s.advance).length = s.length := rfl
@[simp] theorem State.advance_urom (s : State) : (s.advance).urom = s.urom := rfl
@[simp] theorem State.advance_inp (s : State) : (s.advance).inp = s.inp := rfl
@[simp] theorem State.advance_raced (s : State) : (s.advance).raced = s.raced := rfl
@[simp] theorem State.advance_schedule (s : State) : (s.advance).schedule = s.schedule := rfl
@[simp] theorem State.advance_readData (s : State) : (s.advance).readData = s.readData := rfl
@[simp] theorem State.advance_draws (s : State) : (s.advance).draws = s.draws := rfl

@[simp] theorem State.jumpDone_h (s : State) : (s.jumpDone).h = s.h := rfl
@[simp] theorem State.jumpDone_out (s : State) : (s.jumpDone).out = s.out := rfl
@[simp] theorem State.jumpDone_upc (s : State) : (s.jumpDone).upc = doneAddr := rfl
@[simp] theorem State.jumpDone_ph (s : State) : (s.jumpDone).ph = s.ph := rfl
@[simp] theorem State.jumpDone_cur (s : State) : (s.jumpDone).cur = s.cur := rfl
@[simp] theorem State.jumpDone_rem (s : State) : (s.jumpDone).rem = s.rem := rfl
@[simp] theorem State.jumpDone_seedL (s : State) : (s.jumpDone).seedL = s.seedL := rfl
@[simp] theorem State.jumpDone_lenL (s : State) : (s.jumpDone).lenL = s.lenL := rfl
@[simp] theorem State.jumpDone_scls (s : State) : (s.jumpDone).scls = s.scls := rfl
@[simp] theorem State.jumpDone_busy (s : State) : (s.jumpDone).busy = s.busy := rfl
@[simp] theorem State.jumpDone_done (s : State) : (s.jumpDone).done = s.done := rfl
@[simp] theorem State.jumpDone_size (s : State) : (s.jumpDone).size = s.size := rfl
@[simp] theorem State.jumpDone_seed (s : State) : (s.jumpDone).seed = s.seed := rfl
@[simp] theorem State.jumpDone_length (s : State) : (s.jumpDone).length = s.length := rfl
@[simp] theorem State.jumpDone_urom (s : State) : (s.jumpDone).urom = s.urom := rfl
@[simp] theorem State.jumpDone_inp (s : State) : (s.jumpDone).inp = s.inp := rfl
@[simp] theorem State.jumpDone_raced (s : State) : (s.jumpDone).raced = s.raced := rfl
@[simp] theorem State.jumpDone_schedule (s : State) : (s.jumpDone).schedule = s.schedule := rfl
@[simp] theorem State.jumpDone_readData (s : State) : (s.jumpDone).readData = s.readData := rfl
@[simp] theorem State.jumpDone_draws (s : State) : (s.jumpDone).draws = s.draws := rfl

@[simp] theorem State.setLanes_h (s : State) (x : Lanes) : (s.setLanes x).h = x := rfl
@[simp] theorem State.setLanes_out (s : State) (x : Lanes) : (s.setLanes x).out = s.out := rfl
@[simp] theorem State.setLanes_upc (s : State) (x : Lanes) : (s.setLanes x).upc = s.upc := rfl
@[simp] theorem State.setLanes_ph (s : State) (x : Lanes) : (s.setLanes x).ph = s.ph := rfl
@[simp] theorem State.setLanes_cur (s : State) (x : Lanes) : (s.setLanes x).cur = s.cur := rfl
@[simp] theorem State.setLanes_rem (s : State) (x : Lanes) : (s.setLanes x).rem = s.rem := rfl
@[simp] theorem State.setLanes_seedL (s : State) (x : Lanes) : (s.setLanes x).seedL = s.seedL := rfl
@[simp] theorem State.setLanes_lenL (s : State) (x : Lanes) : (s.setLanes x).lenL = s.lenL := rfl
@[simp] theorem State.setLanes_scls (s : State) (x : Lanes) : (s.setLanes x).scls = s.scls := rfl
@[simp] theorem State.setLanes_busy (s : State) (x : Lanes) : (s.setLanes x).busy = s.busy := rfl
@[simp] theorem State.setLanes_done (s : State) (x : Lanes) : (s.setLanes x).done = s.done := rfl
@[simp] theorem State.setLanes_size (s : State) (x : Lanes) : (s.setLanes x).size = s.size := rfl
@[simp] theorem State.setLanes_seed (s : State) (x : Lanes) : (s.setLanes x).seed = s.seed := rfl
@[simp] theorem State.setLanes_length (s : State) (x : Lanes) : (s.setLanes x).length = s.length := rfl
@[simp] theorem State.setLanes_urom (s : State) (x : Lanes) : (s.setLanes x).urom = s.urom := rfl
@[simp] theorem State.setLanes_inp (s : State) (x : Lanes) : (s.setLanes x).inp = s.inp := rfl
@[simp] theorem State.setLanes_raced (s : State) (x : Lanes) : (s.setLanes x).raced = s.raced := rfl
@[simp] theorem State.setLanes_schedule (s : State) (x : Lanes) : (s.setLanes x).schedule = s.schedule := rfl
@[simp] theorem State.setLanes_readData (s : State) (x : Lanes) : (s.setLanes x).readData = s.readData := rfl
@[simp] theorem State.setLanes_draws (s : State) (x : Lanes) : (s.setLanes x).draws = s.draws := rfl

@[simp] theorem State.setOut_h (s : State) (x : Vector Byte 32) : (s.setOut x).h = s.h := rfl
@[simp] theorem State.setOut_out (s : State) (x : Vector Byte 32) : (s.setOut x).out = x := rfl
@[simp] theorem State.setOut_upc (s : State) (x : Vector Byte 32) : (s.setOut x).upc = s.upc := rfl
@[simp] theorem State.setOut_ph (s : State) (x : Vector Byte 32) : (s.setOut x).ph = s.ph := rfl
@[simp] theorem State.setOut_cur (s : State) (x : Vector Byte 32) : (s.setOut x).cur = s.cur := rfl
@[simp] theorem State.setOut_rem (s : State) (x : Vector Byte 32) : (s.setOut x).rem = s.rem := rfl
@[simp] theorem State.setOut_seedL (s : State) (x : Vector Byte 32) : (s.setOut x).seedL = s.seedL := rfl
@[simp] theorem State.setOut_lenL (s : State) (x : Vector Byte 32) : (s.setOut x).lenL = s.lenL := rfl
@[simp] theorem State.setOut_scls (s : State) (x : Vector Byte 32) : (s.setOut x).scls = s.scls := rfl
@[simp] theorem State.setOut_busy (s : State) (x : Vector Byte 32) : (s.setOut x).busy = s.busy := rfl
@[simp] theorem State.setOut_done (s : State) (x : Vector Byte 32) : (s.setOut x).done = s.done := rfl
@[simp] theorem State.setOut_size (s : State) (x : Vector Byte 32) : (s.setOut x).size = s.size := rfl
@[simp] theorem State.setOut_seed (s : State) (x : Vector Byte 32) : (s.setOut x).seed = s.seed := rfl
@[simp] theorem State.setOut_length (s : State) (x : Vector Byte 32) : (s.setOut x).length = s.length := rfl
@[simp] theorem State.setOut_urom (s : State) (x : Vector Byte 32) : (s.setOut x).urom = s.urom := rfl
@[simp] theorem State.setOut_inp (s : State) (x : Vector Byte 32) : (s.setOut x).inp = s.inp := rfl
@[simp] theorem State.setOut_raced (s : State) (x : Vector Byte 32) : (s.setOut x).raced = s.raced := rfl
@[simp] theorem State.setOut_schedule (s : State) (x : Vector Byte 32) : (s.setOut x).schedule = s.schedule := rfl
@[simp] theorem State.setOut_readData (s : State) (x : Vector Byte 32) : (s.setOut x).readData = s.readData := rfl
@[simp] theorem State.setOut_draws (s : State) (x : Vector Byte 32) : (s.setOut x).draws = s.draws := rfl

@[simp] theorem State.setReadData_h (s : State) (x : Word) : (s.setReadData x).h = s.h := rfl
@[simp] theorem State.setReadData_out (s : State) (x : Word) : (s.setReadData x).out = s.out := rfl
@[simp] theorem State.setReadData_upc (s : State) (x : Word) : (s.setReadData x).upc = s.upc := rfl
@[simp] theorem State.setReadData_ph (s : State) (x : Word) : (s.setReadData x).ph = s.ph := rfl
@[simp] theorem State.setReadData_cur (s : State) (x : Word) : (s.setReadData x).cur = s.cur := rfl
@[simp] theorem State.setReadData_rem (s : State) (x : Word) : (s.setReadData x).rem = s.rem := rfl
@[simp] theorem State.setReadData_seedL (s : State) (x : Word) : (s.setReadData x).seedL = s.seedL := rfl
@[simp] theorem State.setReadData_lenL (s : State) (x : Word) : (s.setReadData x).lenL = s.lenL := rfl
@[simp] theorem State.setReadData_scls (s : State) (x : Word) : (s.setReadData x).scls = s.scls := rfl
@[simp] theorem State.setReadData_busy (s : State) (x : Word) : (s.setReadData x).busy = s.busy := rfl
@[simp] theorem State.setReadData_done (s : State) (x : Word) : (s.setReadData x).done = s.done := rfl
@[simp] theorem State.setReadData_size (s : State) (x : Word) : (s.setReadData x).size = s.size := rfl
@[simp] theorem State.setReadData_seed (s : State) (x : Word) : (s.setReadData x).seed = s.seed := rfl
@[simp] theorem State.setReadData_length (s : State) (x : Word) : (s.setReadData x).length = s.length := rfl
@[simp] theorem State.setReadData_urom (s : State) (x : Word) : (s.setReadData x).urom = s.urom := rfl
@[simp] theorem State.setReadData_inp (s : State) (x : Word) : (s.setReadData x).inp = s.inp := rfl
@[simp] theorem State.setReadData_raced (s : State) (x : Word) : (s.setReadData x).raced = s.raced := rfl
@[simp] theorem State.setReadData_schedule (s : State) (x : Word) : (s.setReadData x).schedule = s.schedule := rfl
@[simp] theorem State.setReadData_readData (s : State) (x : Word) : (s.setReadData x).readData = some x := rfl
@[simp] theorem State.setReadData_draws (s : State) (x : Word) : (s.setReadData x).draws = s.draws := rfl

@[simp] theorem State.setBusy_h (s : State) : (s.setBusy).h = s.h := rfl
@[simp] theorem State.setBusy_out (s : State) : (s.setBusy).out = s.out := rfl
@[simp] theorem State.setBusy_upc (s : State) : (s.setBusy).upc = s.upc := rfl
@[simp] theorem State.setBusy_ph (s : State) : (s.setBusy).ph = s.ph := rfl
@[simp] theorem State.setBusy_cur (s : State) : (s.setBusy).cur = s.cur := rfl
@[simp] theorem State.setBusy_rem (s : State) : (s.setBusy).rem = s.rem := rfl
@[simp] theorem State.setBusy_seedL (s : State) : (s.setBusy).seedL = s.seedL := rfl
@[simp] theorem State.setBusy_lenL (s : State) : (s.setBusy).lenL = s.lenL := rfl
@[simp] theorem State.setBusy_scls (s : State) : (s.setBusy).scls = s.scls := rfl
@[simp] theorem State.setBusy_busy (s : State) : (s.setBusy).busy = true := rfl
@[simp] theorem State.setBusy_done (s : State) : (s.setBusy).done = false := rfl
@[simp] theorem State.setBusy_size (s : State) : (s.setBusy).size = s.size := rfl
@[simp] theorem State.setBusy_seed (s : State) : (s.setBusy).seed = s.seed := rfl
@[simp] theorem State.setBusy_length (s : State) : (s.setBusy).length = s.length := rfl
@[simp] theorem State.setBusy_urom (s : State) : (s.setBusy).urom = s.urom := rfl
@[simp] theorem State.setBusy_inp (s : State) : (s.setBusy).inp = s.inp := rfl
@[simp] theorem State.setBusy_raced (s : State) : (s.setBusy).raced = s.raced := rfl
@[simp] theorem State.setBusy_schedule (s : State) : (s.setBusy).schedule = s.schedule := rfl
@[simp] theorem State.setBusy_readData (s : State) : (s.setBusy).readData = s.readData := rfl
@[simp] theorem State.setBusy_draws (s : State) : (s.setBusy).draws = s.draws := rfl

@[simp] theorem State.setDone_h (s : State) : (s.setDone).h = s.h := rfl
@[simp] theorem State.setDone_out (s : State) : (s.setDone).out = s.out := rfl
@[simp] theorem State.setDone_upc (s : State) : (s.setDone).upc = s.upc := rfl
@[simp] theorem State.setDone_ph (s : State) : (s.setDone).ph = s.ph := rfl
@[simp] theorem State.setDone_cur (s : State) : (s.setDone).cur = s.cur := rfl
@[simp] theorem State.setDone_rem (s : State) : (s.setDone).rem = s.rem := rfl
@[simp] theorem State.setDone_seedL (s : State) : (s.setDone).seedL = s.seedL := rfl
@[simp] theorem State.setDone_lenL (s : State) : (s.setDone).lenL = s.lenL := rfl
@[simp] theorem State.setDone_scls (s : State) : (s.setDone).scls = s.scls := rfl
@[simp] theorem State.setDone_busy (s : State) : (s.setDone).busy = false := rfl
@[simp] theorem State.setDone_done (s : State) : (s.setDone).done = true := rfl
@[simp] theorem State.setDone_size (s : State) : (s.setDone).size = s.size := rfl
@[simp] theorem State.setDone_seed (s : State) : (s.setDone).seed = s.seed := rfl
@[simp] theorem State.setDone_length (s : State) : (s.setDone).length = s.length := rfl
@[simp] theorem State.setDone_urom (s : State) : (s.setDone).urom = s.urom := rfl
@[simp] theorem State.setDone_inp (s : State) : (s.setDone).inp = s.inp := rfl
@[simp] theorem State.setDone_raced (s : State) : (s.setDone).raced = s.raced := rfl
@[simp] theorem State.setDone_schedule (s : State) : (s.setDone).schedule = s.schedule := rfl
@[simp] theorem State.setDone_readData (s : State) : (s.setDone).readData = s.readData := rfl
@[simp] theorem State.setDone_draws (s : State) : (s.setDone).draws = s.draws := rfl

end Sys2Proof.Machine
end

