-- ==== Sys2Proof/Laws/Ops.lean ====
section
/-! SUPPORT. One specification lemma per shared operation: reading input bytes, assembling and taking apart words, writing
OUT, absorbing the tail. -/

namespace Sys2Proof

/-- Every multiplier of this instance is odd (R7). -/
theorem Config.oddWord_odd (hi : BitVec 63) : (Config.oddWord hi).getLsbD 0 = true := by
  rw [Config.oddWord, BitVec.getLsbD_append]
  simp

end Sys2Proof

namespace Sys2Proof.Machine

/-- Reading depends on the two stores only. -/
theorem readByte_congr {s t : State} (hi : t.inp = s.inp) (hr : t.raced = s.raced) (a : Nat) :
    readByte t a = readByte s a := by
  simp [readByte, hi, hr]

theorem readBytes_congr {s t : State} (h : ∀ a, readByte t a = readByte s a) :
    ∀ a n, readBytes t a n = readBytes s a n
  | _, 0 => rfl
  | a, n + 1 => by simp only [readBytes, h, readBytes_congr h (a + 1) n]

/-- If every byte is present, the bytes read are those bytes in order. -/
theorem readBytes_present (s : State) (b : Nat → Byte) :
    ∀ a n, (∀ i, i < n → readByte s (a + i) = some (b i)) →
      readBytes s a n = some ((List.range n).map b) := by
  suffices H : ∀ n a c, (∀ i, i < n → readByte s (a + i) = some (b (c + i))) →
      readBytes s a n = some ((List.range' c n).map b) by
    intro a n h
    simpa [List.range_eq_range'] using H n a 0 (by simpa using h)
  intro n
  induction n with
  | zero => intros; rfl
  | succ n ih =>
    intro a c h
    have h0 := h 0 (by omega)
    have ht := ih (a + 1) (c + 1) (fun i hi => by
      have := h (i + 1) (by omega)
      simpa [Nat.add_assoc, Nat.add_comm 1 i] using this)
    simp only [Nat.add_zero] at h0
    simp [readBytes, h0, ht, List.range'_succ]

/-- If a byte is absent, nothing is read. -/
theorem readBytes_absent (s : State) :
    ∀ n a, (∃ i, i < n ∧ readByte s (a + i) = none) → readBytes s a n = none := by
  intro n
  induction n with
  | zero => rintro a ⟨i, hi, -⟩; omega
  | succ n ih =>
    rintro a ⟨i, hi, hn⟩
    simp only [readBytes]
    cases h0 : readByte s a with
    | none => rfl
    | some b =>
      cases i with
      | zero => simp [h0] at hn
      | succ i =>
        have := ih (a + 1) ⟨i, by omega, by simpa [Nat.add_assoc, Nat.add_comm 1 i] using hn⟩
        simp [this]

theorem readWord_present (s : State) (a : Nat) (b : Nat → Byte)
    (h : ∀ i, i < 8 → readByte s (a + i) = some (b i)) :
    readWord s a = some (leWord ((List.range 8).map b)) := by
  simp [readWord, readBytes_present s b a 8 h]

theorem readWord_absent (s : State) (a : Nat) (h : ∃ i, i < 8 ∧ readByte s (a + i) = none) :
    readWord s a = none := by
  simp [readWord, readBytes_absent s 8 a h]

/-- Bit i of an assembled word is bit i mod 8 of byte i / 8 (R80). -/
theorem leWord_getLsbD (bs : List Byte) (i : Nat) (hi : i < 64) :
    (leWord bs).getLsbD i = ((bs[i / 8]?).getD 0).getLsbD (i % 8) := by
  induction bs generalizing i with
  | nil => simp [leWord]
  | cons b bs ih =>
    simp only [leWord, BitVec.getLsbD_or, BitVec.getLsbD_setWidth, BitVec.getLsbD_shiftLeft, hi, decide_true, Bool.true_and]
    by_cases h8 : i < 8
    · have : i / 8 = 0 := by omega
      have h' : i % 8 = i := by omega
      simp [h8, this, h']
    · have hd : i / 8 = (i - 8) / 8 + 1 := by omega
      have hm : i % 8 = (i - 8) % 8 := by omega
      have hb : b.getLsbD i = false := BitVec.getLsbD_of_ge b i (by omega)
      rw [ih (i - 8) (by omega), hd, hm]
      simp [h8, hb]

/-- OutWrite byte by byte (R82). -/
theorem outWrite_getElem (o : Vector Byte 32) (off : Nat) (v : Word) (k : Nat) (hk : k < 32) :
    (outWrite o off v)[k] = if off ≤ k ∧ k < off + 8 then byteOf v (k - off) else o[k] := by
  simp [outWrite]

/-- The byte offset of each slot (R64). -/
theorem slotOffset_eq (j : BitVec 2) : slotOffset j = 8 * j.toNat := rfl

/-- Byte k of an assembled word is byte k of what it was assembled from, 0 past the end (R80). -/
theorem leWord_extract (bs : List Byte) (k : Nat) (hk : k < 8) :
    (leWord bs).extractLsb' (8 * k) 8 = (bs[k]?).getD 0 := by
  apply BitVec.eq_of_getLsbD_eq
  intro i hi
  rw [BitVec.getLsbD_extractLsb', leWord_getLsbD _ _ (by omega)]
  have hd : (8 * k + i) / 8 = k := by omega
  have hm : (8 * k + i) % 8 = i := by omega
  simp [hd, hm, hi]

/-- Adding into two lanes commutes: u64 addition is commutative and associative (R9). -/
theorem Lanes.add_comm (h : Lanes) (l l' : Fin 4) (v v' : Word) : (h.add l v).add l' v' = (h.add l' v').add l v := by
  match l, l' with
  | 0, 0 | 0, 1 | 0, 2 | 0, 3 | 1, 0 | 1, 1 | 1, 2 | 1, 3 | 2, 0 | 2, 1 | 2, 2 | 2, 3 | 3, 0 | 3, 1 | 3, 2 | 3, 3 =>
    simp [Lanes.add, BitVec.add_assoc, BitVec.add_comm v v']

@[simp] theorem zeroOut_getElem (k : Nat) (hk : k < 32) : zeroOut[k] = 0 := by
  simp [zeroOut]

/-- absorbTail reads through readByte, CUR and REM only. -/
theorem absorbTail_congr {s t : State} (hb : ∀ a, readByte t a = readByte s a) (hc : t.cur = s.cur) (hr : t.rem = s.rem) :
    ∀ es h, absorbTail t es h = absorbTail s es h
  | [], _ => rfl
  | e :: es, h => by simp only [absorbTail, hb, hc, hr, absorbTail_congr hb hc hr es]

/-- With every byte the tail needs present, each row below REM adds its byte (R112). -/
theorem absorbTail_present (s : State) (b : Nat → Byte)
    (hp : ∀ i, i < s.rem.toNat → readByte s (s.cur.toNat + i) = some (b i)) :
    ∀ es h, absorbTail s es h =
      some (es.foldl (fun h e => if e.index < s.rem.toNat then h.add e.lane (e.value (b e.index)) else h) h)
  | [], _ => rfl
  | e :: es, h => by
    simp only [absorbTail, List.foldl_cons]
    split
    · rename_i hlt
      simp only [hp e.index hlt]
      exact absorbTail_present s b hp es _
    · exact absorbTail_present s b hp es h

/-- With a byte absent that some row needs, TAIL has no step (R48). -/
theorem absorbTail_absent (s : State) :
    ∀ es h, (∃ e ∈ es, e.index < s.rem.toNat ∧ readByte s (s.cur.toNat + e.index) = none) →
      absorbTail s es h = none
  | [], _, ⟨_, he, _⟩ => by simp at he
  | e :: es, h, hx => by
    obtain ⟨x, hmem, hlt, hn⟩ := hx
    simp only [absorbTail]
    rcases List.mem_cons.1 hmem with rfl | hmem
    · simp [hlt, hn]
    · split
      · cases readByte s (s.cur.toNat + e.index) with
        | none => rfl
        | some b => exact absorbTail_absent s es _ ⟨x, hmem, hlt, hn⟩
      · exact absorbTail_absent s es h ⟨x, hmem, hlt, hn⟩

end Sys2Proof.Machine
end

