-- ==== Sys2Proof/Laws/Exec.lean ====
section
/-! SUPPORT. Inversion lemmas: what each operation, each host action and each turn can do when it answers a next state.
Later proofs cite these instead of unfolding the step. -/

namespace Sys2Proof.Machine

/-- BLOCK answers a next state in two ways (R103). -/
theorem execBlock_next {s t : State} (h : execBlock s = .next t) :
    (16 ≤ s.rem.toNat ∧ ∃ g1 g2, readWord s s.cur.toNat = some g1 ∧ readWord s (s.cur.toNat + 8) = some g2 ∧
      t = absorbBlock g1 g2 s) ∨
    (s.rem.toNat < 16 ∧ t = s.advance) := by
  unfold execBlock at h
  split at h
  · rename_i hr
    split at h
    · rename_i g1 g2 h1 h2
      exact .inl ⟨hr, g1, g2, h1, h2, by injection h with h; exact h.symm⟩
    · simp [stuck] at h
  · exact .inr ⟨by omega, by injection h with h; exact h.symm⟩

/-- SQZ as one record update (R119). Use this and not `rfl`: the unifier must not unfold `outWrite`. -/
theorem squeeze_eq (j : BitVec 2) (s : State) :
    squeeze j s = .next { s with out := outWrite s.out (slotOffset j) (squeezeWord s.h), upc := s.upc + 1 } := by
  simp only [squeeze, State.advance, State.setOut]

/-- TAIL answers a next state in one way (R112). -/
theorem execTail_next {s t : State} (h : execTail s = .next t) :
    s.rem.toNat < 16 ∧ ∃ l, absorbTail s tailMap s.h = some l ∧ t = (s.setLanes l).advance := by
  unfold execTail at h
  split at h
  · simp [raiseModelFault] at h
  · split at h
    · rename_i l hl
      exact ⟨by omega, l, hl, by injection h with h; exact h.symm⟩
    · simp [stuck] at h

/-- START answers a next state in two ways (R100, R101). -/
theorem execStart_next {s t : State} (h : execStart s = .next t) :
    (s.busy = true ∧ t = s) ∨
    (s.busy = false ∧ ∃ z sd ln, s.size = some z ∧ s.seed = some sd ∧ s.length = some ln ∧ t = acceptStart z sd ln s) := by
  unfold execStart at h
  split at h
  · rename_i hb
    exact .inl ⟨hb, by injection h with h; exact h.symm⟩
  · rename_i hb
    split at h
    · rename_i z sd ln h1 h2 h3
      exact .inr ⟨by simpa using hb, z, sd, ln, h1, h2, h3, by injection h with h; exact h.symm⟩
    · simp [raiseModelFault] at h

/-- START raises its fault only while BUSY = 0 with a parameter cell empty (R40). -/
theorem execStart_fault {s : State} {r : Fault} (h : execStart s = .fault r) :
    r = .unwrittenParam ∧ s.busy = false ∧ (s.size = none ∨ s.seed = none ∨ s.length = none) := by
  unfold execStart at h
  split at h
  · simp at h
  · rename_i hb
    split at h
    · simp at h
    · rename_i hn
      refine ⟨by simpa [raiseModelFault] using h.symm, by simpa using hb, ?_⟩
      by_contra hc
      simp only [not_or, ← ne_eq, Option.ne_none_iff_exists'] at hc
      obtain ⟨⟨z, hz⟩, ⟨sd, hsd⟩, ⟨ln, hln⟩⟩ := hc
      exact hn z sd ln hz hsd hln

/-- With the parameter cells written and BUSY = 0, START is accepted (R100). -/
theorem execStart_accept {s : State} {z : Half} {sd ln : Word} (hb : s.busy = false) (hz : s.size = some z)
    (hsd : s.seed = some sd) (hln : s.length = some ln) : execStart s = .next (acceptStart z sd ln s) := by
  unfold execStart
  rw [hz, hsd, hln, if_neg (by rw [hb]; exact Bool.false_ne_true)]

/-- What the sequencer does with the word it fetches (R23, R68, R135). -/
theorem sequencerTurn_ok {s : State} {i : Instr} (hb : s.busy = true) (hd : decodeUop (fetchWord s) = .ok i) :
    sequencerTurn s = exec i s := by
  unfold sequencerTurn
  rw [if_pos hb, hd]

theorem sequencerTurn_error {s : State} {e : DecodeError} (hb : s.busy = true)
    (hd : decodeUop (fetchWord s) = .error e) : sequencerTurn s = .fault .illegalUop := by
  unfold sequencerTurn
  rw [if_pos hb, hd]
  rfl

theorem sequencerTurn_idle {s : State} (hb : s.busy = false) : sequencerTurn s = .next s := by
  unfold sequencerTurn
  rw [if_neg (by rw [hb]; exact Bool.false_ne_true)]

/-- The sequencer's turn: idle, or one decoded micro-operation (R23, R135). -/
theorem sequencerTurn_next {s t : State} (h : sequencerTurn s = .next t) :
    (s.busy = false ∧ t = s) ∨ (s.busy = true ∧ ∃ i, decodeUop (fetchWord s) = .ok i ∧ exec i s = .next t) := by
  unfold sequencerTurn at h
  split at h
  · rename_i hb
    split at h
    · rename_i i hi
      exact .inr ⟨hb, i, hi, h⟩
    · simp [raiseModelFault] at h
  · rename_i hb
    exact .inl ⟨by simpa using hb, by injection h with h; exact h.symm⟩

theorem readSize_eq (s : State) :
    readSize s = { s with readData := (readSize s).readData, draws := (readSize s).draws } := by
  unfold readSize
  split <;> rfl

theorem readCell_eq (c : Option Word) (s : State) :
    readCell c s = { s with readData := (readCell c s).readData, draws := (readCell c s).draws } := by
  cases c <;> rfl

theorem readOutput_eq (v : Word) (s : State) :
    readOutput v s = { s with readData := (readOutput v s).readData, draws := (readOutput v s).draws } := by
  unfold readOutput
  split <;> rfl

/-- A host read leaves everything but the returned data and the draw count as it is. -/
theorem hostRead_eq (r : HostReg) (s : State) :
    hostRead r s = { s with readData := (hostRead r s).readData, draws := (hostRead r s).draws } := by
  cases r with
  | ctrl | status | reserved => rfl
  | size => exact readSize_eq s
  | seed | length => exact readCell_eq _ s
  | first4 | out j => exact readOutput_eq _ s

/-- CTRL is at offset 0x00 alone (R30). -/
theorem regAt_ctrl {off : BitVec 7} (h : regAt off = .ctrl) : off = 0x00#7 := by
  unfold regAt at h
  split at h
  · assumption
  · repeat' split at h
    all_goals cases h

theorem writeCtrl_start {d : Word} (hd : d.getLsbD 0 = true) (s : State) : writeCtrl d s = execStart s := by
  rw [writeCtrl, decodeCtrl, if_pos hd]
  rfl

theorem writeCtrl_noStart {d : Word} (hd : d.getLsbD 0 = false) (s : State) : writeCtrl d s = .next s := by
  rw [writeCtrl, decodeCtrl, if_neg (by rw [hd]; exact Bool.false_ne_true)]

/-- A host write other than a START changes the three parameter cells only, and empties none of them (R33 to R38). -/
theorem hostWrite_next {r : HostReg} {d : Word} {s t : State} (h : hostWrite r d s = .next t) :
    (r = .ctrl ∧ d.getLsbD 0 = true ∧ execStart s = .next t) ∨
    (∃ z sd ln, t = { s with size := z, seed := sd, length := ln } ∧ (s.size.isSome → z.isSome) ∧
      (s.seed.isSome → sd.isSome) ∧ (s.length.isSome → ln.isSome)) := by
  cases r with
  | ctrl =>
    cases hd : d.getLsbD 0 with
    | true => exact .inl ⟨rfl, rfl, (writeCtrl_start hd s).symm.trans h⟩
    | false =>
      have h' := (writeCtrl_noStart hd s).symm.trans h
      injection h' with h'
      exact .inr ⟨s.size, s.seed, s.length, h'.symm, id, id, id⟩
  | size => injection h with h; exact .inr ⟨_, s.seed, s.length, h.symm, fun _ => rfl, id, id⟩
  | seed => injection h with h; exact .inr ⟨s.size, _, s.length, h.symm, id, fun _ => rfl, id⟩
  | length => injection h with h; exact .inr ⟨s.size, s.seed, _, h.symm, id, id, fun _ => rfl⟩
  | status | first4 | out j | reserved =>
    injection h with h
    exact .inr ⟨s.size, s.seed, s.length, h.symm, id, id, id⟩

/-- An access that meets R39 is the read or write of the register at its offset. -/
theorem hostAccess_read {off : BitVec 7} (ho : off.toNat % 8 = 0) (s : State) :
    hostAccess (.read off 64) s = .next (hostRead (regAt off) s) := by
  simp [hostAccess, HostAccess.wf, HostAccess.width, HostAccess.offset, ho]

theorem hostAccess_write {off : BitVec 7} (ho : off.toNat % 8 = 0) (d : Word) (s : State) :
    hostAccess (.write off 64 d) s = hostWrite (regAt off) d s := by
  simp [hostAccess, HostAccess.wf, HostAccess.width, HostAccess.offset, ho]

/-- An access that fails R39 is refused. -/
theorem hostAccess_refused {a : HostAccess} (h : a.wf = false) (s : State) :
    hostAccess a s = .refused .badHostAccess := by
  unfold hostAccess
  rw [if_neg (by rw [h]; exact Bool.false_ne_true)]

/-- An access that meets R39 is 64 bits wide at a multiple of 8. -/
theorem HostAccess.wf_iff (a : HostAccess) : a.wf = true ↔ a.width = 64 ∧ a.offset.toNat % 8 = 0 := by
  simp [HostAccess.wf]

/-- A host access answers a next state as a read, a START or another write (R31 to R39). -/
theorem hostAccess_next {a : HostAccess} {s t : State} (h : hostAccess a s = .next t) :
    (∃ v n, t = { s with readData := v, draws := n }) ∨
    (∃ d, a = .write 0 64 d ∧ d.getLsbD 0 = true ∧ execStart s = .next t) ∨
    (∃ z sd ln, t = { s with size := z, seed := sd, length := ln } ∧ (s.size.isSome → z.isSome) ∧
      (s.seed.isSome → sd.isSome) ∧ (s.length.isSome → ln.isSome)) := by
  unfold hostAccess at h
  split at h
  · rename_i hw
    cases a with
    | read off w =>
      injection h with h
      exact .inl ⟨_, _, h.symm.trans (hostRead_eq (regAt off) s)⟩
    | write off w d =>
      rcases hostWrite_next h with ⟨h0, hd, hs⟩ | hw'
      · have ho := regAt_ctrl h0
        have hw64 : w = 64 := by
          simp only [HostAccess.wf, HostAccess.width, Bool.and_eq_true, beq_iff_eq] at hw
          exact hw.1
        subst ho hw64
        exact .inr (.inl ⟨d, rfl, hd, hs⟩)
      · exact .inr (.inr hw')
  · simp at h

/-- What supplying input can change: IN, the raced bytes and the draw count (R47, R62). -/
theorem supplyInput_eq (addr : Word) (v : Option Byte) (s : State) :
    supplyInput addr v s =
      { s with
        inp := (supplyInput addr v s).inp
        raced := (supplyInput addr v s).raced
        draws := (supplyInput addr v s).draws } := by
  unfold supplyInput
  dsimp only
  split <;> rfl

theorem supplyInput_inp (addr : Word) (v : Option Byte) (s : State) :
    (supplyInput addr v s).inp = s.inp.put addr.toNat v := by
  unfold supplyInput
  dsimp only
  split <;> rfl

/-- The raced bytes after supplying input: as before, or with one drawn byte more. -/
theorem supplyInput_raced (addr : Word) (v : Option Byte) (s : State) :
    (supplyInput addr v s).raced = s.raced ∨
    (supplyInput addr v s).raced = s.raced.write addr.toNat (Config.freeByte s.draws) := by
  unfold supplyInput
  dsimp only
  split
  · exact .inr rfl
  · exact .inl rfl

/-- What no operation but START writes: the latches, UROM, the input and the parameter cells. -/
structure RunFrame (s t : State) : Prop where
  seedL  : t.seedL = s.seedL
  lenL   : t.lenL = s.lenL
  scls   : t.scls = s.scls
  urom   : t.urom = s.urom
  inp    : t.inp = s.inp
  raced  : t.raced = s.raced
  size   : t.size = s.size
  seed   : t.seed = s.seed
  length : t.length = s.length

/-- Every micro-operation keeps the run's frame. -/
theorem exec_runFrame {i : Instr} (hi : i ≠ .start) {s t : State} (h : exec i s = .next t) : RunFrame s t := by
  cases i with
  | start => exact absurd rfl hi
  | block => rcases execBlock_next h with ⟨-, _, _, -, -, rfl⟩ | ⟨-, rfl⟩ <;> constructor <;> rfl
  | tail => obtain ⟨-, _, -, rfl⟩ := execTail_next h; constructor <;> rfl
  | sqz0 | sqz1 | sqz2 | sqz3 =>
    have h' := (squeeze_eq _ s).symm.trans h
    injection h' with h'
    subst h'
    constructor <;> rfl
  | chk0 | chk1 | chk2 | chk3 =>
    change checkClass _ s = _ at h
    injection h with h
    subst h
    split <;> constructor <;> rfl
  | init | mixa | mixb | done =>
    injection h with h
    subst h
    constructor <;> rfl

/-- No word of the ROM decodes to the host's command (R65). -/
theorem decodeUop_ne_start {w : Byte} {i : Instr} (h : decodeUop w = .ok i) : i ≠ .start := by
  rintro rfl
  unfold decodeUop withoutArg sqzOfSlot chkOfThreshold at h
  repeat' split at h
  all_goals cases h

theorem takeTurn_nil {s : State} (h : s.schedule = []) : takeTurn s = (.sequencer, s) := by
  simp [takeTurn, h]

theorem takeTurn_cons {s : State} {u : Turn} {ts : List Turn} (h : s.schedule = u :: ts) :
    takeTurn s = (u, { s with schedule := ts }) := by
  simp [takeTurn, h]

/-- What one step can do: the sequencer's turn, or one host action, on the state without that turn. -/
theorem step_next {s t : State} (h : step s = .next t) :
    ((s.schedule = [] ∨ ∃ ts, s.schedule = .sequencer :: ts) ∧
      sequencerTurn { s with schedule := s.schedule.tail } = .next t) ∨
    (∃ a ts, s.schedule = .host a :: ts ∧ hostAct a { s with schedule := ts } = .next t) := by
  unfold step at h
  rcases hs : s.schedule with _ | ⟨u, ts⟩
  · rw [takeTurn_nil hs] at h
    have e : { s with schedule := ([] : List Turn).tail } = s := by
      rw [List.tail_nil, ← hs]
    exact .inl ⟨.inl rfl, by rw [e]; exact h⟩
  · rw [takeTurn_cons hs] at h
    cases u with
    | sequencer => exact .inl ⟨.inr ⟨ts, rfl⟩, by simpa [runTurn] using h⟩
    | host a => exact .inr ⟨a, ts, rfl, by simpa [runTurn] using h⟩

end Sys2Proof.Machine
end

