-- ==== Sys2Proof/Laws/PerInstr.lean ====
section
/-! SUPPORT. Statements for all instructions, one lemma per constructor. Coding: a well-formed instruction's word decodes to
it (R65, R66). -/

namespace Sys2Proof.Laws

/-- The word of a well-formed instruction decodes to that instruction. -/
def Coding.Statement (i : Instr) : Prop := i.wf = true → decode (encode i) = .ok i

theorem Coding.init : Coding.Statement .init := fun _ => rfl
theorem Coding.block : Coding.Statement .block := fun _ => rfl
theorem Coding.mixa : Coding.Statement .mixa := fun _ => rfl
theorem Coding.mixb : Coding.Statement .mixb := fun _ => rfl
theorem Coding.tail : Coding.Statement .tail := fun _ => rfl
theorem Coding.sqz0 : Coding.Statement .sqz0 := fun _ => rfl
theorem Coding.sqz1 : Coding.Statement .sqz1 := fun _ => rfl
theorem Coding.sqz2 : Coding.Statement .sqz2 := fun _ => rfl
theorem Coding.sqz3 : Coding.Statement .sqz3 := fun _ => rfl
theorem Coding.chk0 : Coding.Statement .chk0 := fun _ => rfl
theorem Coding.chk1 : Coding.Statement .chk1 := fun _ => rfl
theorem Coding.chk2 : Coding.Statement .chk2 := fun _ => rfl
theorem Coding.chk3 : Coding.Statement .chk3 := fun _ => rfl
theorem Coding.done : Coding.Statement .done := fun _ => rfl
theorem Coding.start : Coding.Statement .start := fun _ => rfl

end Sys2Proof.Laws
end

