-- ==== Sys2Proof/Laws/Run.lean ====
section
/-! SUPPORT. Runs of several steps, and which micro-operation the fixed ROM holds at each address (R130). -/

namespace Sys2Proof.Machine

theorem run_one {s t : State} (h : step s = .next t) : core.run 1 s = .next t := by
  have h' : core.step s = .next t := h
  simp [Host.Core.run, h']

/-- A run is the run of its first part, then of the rest. -/
theorem run_append {m n : Nat} {s t : State} (h : core.run m s = .next t) : core.run (m + n) s = core.run n t := by
  induction m generalizing s with
  | zero =>
    have hst : s = t := by injection h
    rw [hst, Nat.zero_add]
  | succ m ih =>
    rw [Nat.succ_add]
    simp only [Host.Core.run] at h ⊢
    cases hx : core.step s with
    | next u =>
      rw [hx] at h
      exact ih h
    | fault r =>
      rw [hx] at h
      cases h
    | refused r =>
      rw [hx] at h
      cases h

/-- The operation R130's table names at each address; none at 19 to 31 (R131). -/
def romInstr : Nat → Option Instr
  | 0 => some .init
  | 1 => some .block
  | 2 => some .mixb
  | 3 => some .tail
  | 4 => some .mixa
  | 5 => some .mixb
  | 6 => some .mixa
  | 7 => some .sqz0
  | 8 => some .chk1
  | 9 => some .mixa
  | 10 => some .sqz1
  | 11 => some .chk2
  | 12 => some .mixa
  | 13 => some .mixb
  | 14 => some .mixa
  | 15 => some .sqz2
  | 16 => some .mixa
  | 17 => some .sqz3
  | 18 => some .done
  | _ => none

theorem decodeUop_uromImage : ∀ u : BitVec 5,
    (match decodeUop uromImage[u.toFin] with
      | .ok i => some i
      | .error _ => none) = romInstr u.toNat := by decide

/-- With UROM its image, what the fetched word decodes to is R130's table. -/
theorem decode_fetch_iff {s : State} (h : s.urom = uromImage) (i : Instr) :
    decodeUop (fetchWord s) = .ok i ↔ romInstr s.upc.toNat = some i := by
  have hf : fetchWord s = uromImage[s.upc.toFin] := by
    unfold fetchWord
    rw [h]
  rw [hf, ← decodeUop_uromImage]
  cases decodeUop uromImage[s.upc.toFin] <;> simp

end Sys2Proof.Machine
end

