-- ==== Sys2Proof/Tests/Slice0.lean ====
section
/-! SUPPORT. The model's own tests. Every expected value is a word, vector or table row of spec/ (named in the docstring),
or worked out by hand from the rule named. -/

namespace Sys2Proof.Tests

open Sys2Proof.Machine

/-- K_unit of 41_mixing.md. -/
def kUnit : MixConst := ⟨1, 1, 1, 1, 1, 1, 1, 1⟩

/-- K_small of 41_mixing.md. -/
def kSmall : MixConst := ⟨3, 5, 7, 9, 11, 13, 15, 17⟩

/-- A fact about the next state of an outcome; false when there is none. -/
def nextHas (p : State → Bool) : Host.Outcome State Fault Refusal → Bool
  | .next s => p s
  | _ => false

/-- The outcome is this fault. -/
def faultIs (f : Fault) : Host.Outcome State Fault Refusal → Bool
  | .fault g => g == f
  | _ => false

/-- The outcome is this refusal. -/
def refusedIs (r : Refusal) : Host.Outcome State Fault Refusal → Bool
  | .refused q => q == r
  | _ => false

/-- IN with the given bytes from address 0 on. -/
def inputFrom (a : Nat) : List Byte → Memory
  | [] => []
  | b :: bs => (a, b) :: inputFrom (a + 1) bs

/-- Bytes 00 01 02 ... -/
def countUp (n : Nat) : List Byte := (List.range n).map (BitVec.ofNat 8)

/-- The first n bytes of a digest's output. -/
def outBytes (d : Digest) (n : Nat) : List Byte := d.out.toList.take n

/-- A running block with the parameter cells written. -/
def running : State :=
  { State.reset with busy := true, size := some 64, seed := some 0, length := some 3 }

/-- An idle block with the parameter cells written. -/
def ready : State := { running with busy := false }

/-! Well-formedness: an ill-formed access for each check (R39, 95_test_vectors.md 2.9). -/

theorem test_wf_width : (HostAccess.read 0x08 32).wf = false := by decide
theorem test_wf_align : (HostAccess.write 0x0C 64 1).wf = false := by decide
theorem test_wf_ok : (HostAccess.write 0x10 64 1).wf = true := by decide
theorem test_wf_instr : Instr.sqz3.wf = true := by decide

/-! Decoding: every word of R65 written out bit by bit, and the illegal words of 95_test_vectors.md 2.10. -/

theorem test_decode_init : decodeUop 0b00010000#8 = .ok .init := rfl
theorem test_decode_block : decodeUop 0b00100000#8 = .ok .block := rfl
theorem test_decode_mixa : decodeUop 0b00110000#8 = .ok .mixa := rfl
theorem test_decode_mixb : decodeUop 0b01000000#8 = .ok .mixb := rfl
theorem test_decode_tail : decodeUop 0b01010000#8 = .ok .tail := rfl
theorem test_decode_sqz0 : decodeUop 0b01100000#8 = .ok .sqz0 := rfl
theorem test_decode_sqz1 : decodeUop 0b01100001#8 = .ok .sqz1 := rfl
theorem test_decode_sqz2 : decodeUop 0b01100010#8 = .ok .sqz2 := rfl
theorem test_decode_sqz3 : decodeUop 0b01100011#8 = .ok .sqz3 := rfl
theorem test_decode_chk0 : decodeUop 0b01110000#8 = .ok .chk0 := rfl
theorem test_decode_chk1 : decodeUop 0b01110001#8 = .ok .chk1 := rfl
theorem test_decode_chk2 : decodeUop 0b01110010#8 = .ok .chk2 := rfl
theorem test_decode_chk3 : decodeUop 0b01110011#8 = .ok .chk3 := rfl
theorem test_decode_done : decodeUop 0b10000000#8 = .ok .done := rfl
theorem test_decode_start : decodeCtrl 0xFFFFFFFFFFFFFFF1#64 = .ok .start := rfl
theorem test_decode_no_start : decodeCtrl 0xFFFFFFFFFFFFFFF0#64 = .error .noStartBit := rfl
theorem test_decode_fill : decodeUop 0x00 = .error .illegalOp := rfl
theorem test_decode_arg : decodeUop 0x23 = .error .reservedArg := rfl
theorem test_decode_rsv : decodeUop 0x6C = .error .reservedBits := rfl
theorem test_decode_op : decodeUop 0x90 = .error .illegalOp := rfl
theorem test_encode_words :
    [Instr.init, .block, .mixa, .mixb, .tail, .sqz0, .sqz1, .sqz2, .sqz3, .chk0, .chk1, .chk2, .chk3, .done].map encode =
      [0x10#8, 0x20, 0x30, 0x40, 0x50, 0x60, 0x61, 0x62, 0x63, 0x70, 0x71, 0x72, 0x73, 0x80].map Code.uop := by decide
theorem test_table_words :
    decodeTableWord 8 0x73 = some .chk3 ∧ decodeTableWord 8 1 = some .start ∧ decodeTableWord 64 1 = some .start ∧
      decodeTableWord 8 0x11 = none := by decide

/-! The placed word is the next step (fetch from the ROM, or the host's CTRL write). -/

theorem test_place_init :
    nextHas (fun t => t.upc == 1 && t.h == ⟨1, 3, 5, 7⟩) (step (State.reset.withFetchWord 8 0x10)) = true := by decide
theorem test_place_chk3 : nextHas (fun t => t.upc == 18) (step (State.reset.withFetchWord 8 0x73)) = true := by decide
theorem test_place_mixa : nextHas (fun t => t.upc == 1) (step (State.reset.withFetchWord 8 0x30)) = true := by decide
theorem test_place_start : faultIs .unwrittenParam (step (State.reset.withFetchWord 64 1)) = true := by decide
theorem test_place_illegal : faultIs .illegalUop (step (State.reset.withFetchWord 8 0x14)) = true := by decide

/-! Normalizer (95_test_vectors.md 2.1). -/

theorem test_read64 :
    readWord { State.reset with inp := inputFrom 5 [0xFF, 0, 0, 0, 0, 0, 0, 0x80] } 5 = some 0x80000000000000FF := by decide
theorem test_outwrite :
    outWrite zeroOut 8 0x0123456789ABCDEF =
      #v[0, 0, 0, 0, 0, 0, 0, 0, 0xEF, 0xCD, 0xAB, 0x89, 0x67, 0x45, 0x23, 0x01,
        0, 0, 0, 0, 0, 0, 0, 0, 0, 0, 0, 0, 0, 0, 0, 0] := by decide
theorem test_first4 : first4 (outWrite zeroOut 0 0x797777E740CE67B7) = 0x40CE67B7 := by decide

/-! MIXA and MIXB (2.4 and 2.5, K_small). -/

theorem test_mixa :
    mixA kSmall ⟨1, 3, 5, 7⟩ = ⟨0x00001E0000000000, 0x000005E8003B1000, 0x0000059600000000, 0x50000037C8002C79⟩ := by decide
theorem test_mixa_ones :
    mixA kSmall ⟨-1, -1, -1, -1⟩ =
      ⟨0xFFFFE7FFFFFFFFFD, 0x000003F0002F4000, 0xFFFFFEF7FFFFFFF5, 0xC000004FB0000834⟩ := by decide
theorem test_mixb :
    mixB kSmall 0x0123456789ABCDEF ⟨1, 3, 5, 7⟩ = ⟨1, 0x0005FA0000000000, 0x8F592C924D34F5BF, 7⟩ := by decide
theorem test_mixb_wraps :
    mixB kSmall 0xFFFFFFFFFFFFFFFF ⟨9, 1, 0, 9⟩ = ⟨9, 0x0001FE0000000000, 0xFFFF8200FB03FFF7, 9⟩ := by decide

/-! INIT (2.2), BLOCK (2.3), TAIL (2.6). -/

theorem test_init_wraps :
    nextHas (fun t => t.h == ⟨1, 3, 5, 7⟩ && t.rem == 0x8000000000000000 && t.cur == 0 && !t.ph)
      (exec .init { running with seedL := 0x8000000000000000, lenL := 0x8000000000000000, ph := true, cur := 5 }) = true := by
  decide

/-- B1's lane update; B1's and B2's primitives under K_small. -/
theorem test_block_lanes :
    absorbWords ⟨0x11, 0x13, 0x15, 0x17⟩ 0x0706050403020100 0x0F0E0D0C0B0A0908 =
      ⟨0xF8F9FAFBFCFDFF11, 0x0706050403020113, 0x0F0E0D0C0B0A091D, 0xF0F1F2F3F4F5F70F⟩ := by decide
theorem test_block_phase :
    mixByPhase kSmall true 1 (absorbWords ⟨0xC3E6012D4B6987A3, 0x93B0D9FB99083144, 0x55364174D1B29373, 0xF110E775690F5E91⟩
      0x1716151413121110 0x1F1E1D1C1B1A1918) =
      ⟨0xACCFEC1938577693, 0x50235838504138DB, 0xAF02E3F295470CC7, 0xD1F2CA594DF54579⟩ := by decide
theorem test_block_absorbs :
    nextHas (fun t => t.cur == 16 && t.rem == 0 && t.ph && t.upc == 1)
      (exec .block { running with upc := 1, rem := 16, inp := inputFrom 0 (countUp 16) }) = true := by decide
/-- B4: In(5) absent. -/
theorem test_block_stuck :
    refusedIs .absentInput
      (exec .block { running with upc := 1, rem := 16, inp := Memory.erase (inputFrom 0 (countUp 16)) 5 }) = true := by decide

theorem test_tail_abc :
    nextHas (fun t => t.h == ⟨0x0000000000630004, 0x00000C0000006200, 0x0000100000180061, 10⟩)
      (exec .tail
        { running with
          rem := 3
          h := ⟨4, 0x00000C0000000000, 0x0000100000180000, 10⟩
          inp := inputFrom 0 [0x61, 0x62, 0x63] }) = true := by decide
theorem test_tail_carries :
    nextHas (fun t => t.h == ⟨0xFFFF0000FFFEFFFF, 0x00FFFF0000FFFEFF, 0x0000FFFF0000FFFE, 0x000000FFFF0000FE⟩)
      (exec .tail
        { running with
          rem := 15
          cur := 16
          h := ⟨-1, -1, -1, -1⟩
          inp := inputFrom 16 (List.replicate 15 0xFF) }) = true := by decide
theorem test_tail_rem : faultIs .tailRem (exec .tail { running with rem := 16 }) = true := by decide

/-! SQZ, CHK, DONE (2.7 to 2.9). -/

theorem test_sqz2 :
    nextHas (fun t => outWord t.out 2 == 0xFFFFFFFFFFFFFFFD && outWord t.out 1 == 0 && outWord t.out 3 == 0)
      (exec .sqz2 { running with h := ⟨7, 7, 1, 2⟩ }) = true := by decide
theorem test_sqz0_wraps :
    nextHas (fun t => outWord t.out 0 == 1)
      (exec .sqz0 { running with h := ⟨0, 0, 0x0123456789ABCDEF, 0xFEDCBA9876543210⟩ }) = true := by decide
theorem test_chk1 :
    nextHas (fun t => t.upc == 9) (exec .chk1 { running with upc := 8, scls := 1 }) = true ∧
    nextHas (fun t => t.upc == 18) (exec .chk2 { running with upc := 8, scls := 1 }) = true := by decide
theorem test_done :
    nextHas (fun t => statusWord t == 2 && t.upc == 18) (exec .done { running with upc := 18 }) = true := by decide

/-! START and the host registers (2.9). -/

theorem test_start :
    nextHas (fun t => t.lenL == 3 && t.scls == 0 && t.upc == 0 && statusWord t == 1) (exec .start { ready with upc := 18 })
      = true := by decide
theorem test_start_busy :
    nextHas (fun t => t.seedL == 0) (exec .start { running with seed := some 5 }) = true := by decide
theorem test_size_upper_bits :
    nextHas (fun t => t.size == some 0x80)
      (hostAct (.access (.write 0x10 64 0x100000080)) ready) = true := by decide
theorem test_bad_access : refusedIs .badHostAccess (hostAct (.access (.read 0x0C 64)) ready) = true := by decide

/-! The function `rainbow` (95_test_vectors.md 1.3 to 1.6). -/

theorem test_rainbow_abc :
    outBytes (rainbow kSmall 64 [0x61, 0x62, 0x63] 0) 9 = [0xb8, 0x95, 0x13, 0xd1, 0x40, 0x52, 0x89, 0x79, 0] := by decide
theorem test_rainbow_256 :
    outBytes (rainbow kSmall 256 [0x61, 0x62, 0x63] 0x0123456789ABCDEF) 32 =
      [0x90, 0x4d, 0x64, 0x3c, 0x6c, 0x5b, 0xe5, 0x6e, 0x3b, 0xb9, 0x7c, 0xd1, 0x0e, 0xd8, 0x13, 0x5f,
       0xca, 0x37, 0xaf, 0xf9, 0x04, 0x42, 0xeb, 0xef, 0xb2, 0xe3, 0xf1, 0x42, 0xe2, 0x2e, 0x50, 0xef] := by decide
theorem test_rainbow_32 :
    outBytes (rainbow kSmall 64 (countUp 32) 0) 8 = [0x8d, 0x3f, 0x7e, 0xef, 0xb6, 0x44, 0x8c, 0x0b] := by decide

/-! The assembler (R71, R72): the listing of R130, with FINAL for its two cores, gives the ROM's programmed words. -/

theorem test_assemble_rom :
    assemble [.op .init, .op .block, .op .mixb, .op .tail, .final, .op .sqz0, .op .chk1, .op .mixa, .op .sqz1, .op .chk2,
      .final, .op .sqz2, .op .mixa, .op .sqz3, .op .done] = uromImage.toList.take 19 := by decide
/-- `07: SQZ 2 ; x`, in the form of the listing of 95_test_vectors.md section 3. -/
theorem test_parse_line :
    parseLine ['0', '7', ':', ' ', 'S', 'Q', 'Z', ' ', '2', ' ', ';', ' ', 'x'] = some [.op .sqz2] := by decide
theorem test_parse_operand :
    parseLine ['C', 'H', 'K', ' ', '4'] = none ∧ parseLine ['F', 'I', 'N', 'A', 'L'] = some [.final] := by decide
theorem test_assemble_pseudo : assemble [.nop, .jdone] = [0x70, 0x73] := by decide

/-! Witnesses: for each statement with hypotheses, a concrete state and operands that meet them all, one for each clause. -/

theorem witness_decoded_word :
    decode (.uop 0x20) = .ok .block ∧ decode (.ctrl 0xFFFFFFFFFFFFFFF1) = .ok .start := ⟨rfl, rfl⟩

theorem witness_rotation : 1 ≤ 37 ∧ 37 ≤ 63 ∧ 63 < 64 := by decide

theorem witness_odd : kSmall.Odd := by unfold MixConst.Odd; decide

theorem witness_outwrite : 3 < 4 ∧ 7 < ([1, 2, 3, 4, 5, 6, 7, 8] : List Byte).length := by decide

/-- A block at BLOCK's address with LENGTH 16 and In(a) = a for a < 16. -/
def atBlock : State := { running with upc := 1, rem := 16, lenL := 16, inp := inputFrom 0 (countUp 16) }

theorem witness_input_word :
    (∀ k, k < 8 → readByte atBlock (8 + k) = some (BitVec.ofNat 8 (8 + k))) ∧
    readByte atBlock (9 + 7) = none := by decide

theorem witness_block_absorbs :
    16 ≤ atBlock.rem.toNat ∧
    ∀ i, i < 16 → readByte atBlock (atBlock.cur.toNat + i) = some (BitVec.ofNat 8 i) := by decide
theorem witness_block_stuck :
    16 ≤ atBlock.rem.toNat ∧
    ∃ i, i < 16 ∧ readByte { atBlock with inp := inputFrom 0 (countUp 15) } (atBlock.cur.toNat + i) = none :=
  ⟨by decide, 15, by decide, by decide⟩
theorem witness_block_exits : ({ atBlock with rem := 15 } : State).rem.toNat < 16 := by decide

/-- A block at TAIL with 15 bytes left. -/
def atTail : State := { atBlock with upc := 3, rem := 15 }

theorem witness_tail_adds :
    atTail.rem.toNat < 16 ∧
    ∀ i, i < atTail.rem.toNat → readByte atTail (atTail.cur.toNat + i) = some (BitVec.ofNat 8 i) := by decide
theorem witness_tail_stuck :
    ({ atTail with cur := 2 } : State).rem.toNat < 16 ∧
    ∃ i, i < atTail.rem.toNat ∧ readByte { atTail with cur := 2 } (2 + i) = none :=
  ⟨by decide, 14, by decide, by decide⟩
theorem witness_tail_fault : 16 ≤ ({ atTail with rem := 16 } : State).rem.toNat := by decide
theorem witness_tail_order : tailMap.reverse.Perm tailMap := List.reverse_perm _

theorem witness_squeeze : (Instr.sqz3, 3) ∈ [(Instr.sqz0, 0), (.sqz1, 1), (.sqz2, 2), (.sqz3, 3)] := by decide
theorem witness_check : (Instr.chk3, 3) ∈ [(Instr.chk0, 0), (.chk1, 1), (.chk2, 2), (.chk3, 3)] := by decide
theorem witness_check_three : ({ running with scls := 2 } : State).scls.toNat ≤ 2 := by decide

theorem witness_start_ignored : running.busy = true := rfl
theorem witness_start_fault :
    State.reset.busy = false ∧ (State.reset.size = none ∨ State.reset.seed = none ∨ State.reset.length = none) := by decide
theorem witness_start_accepted :
    ready.busy = false ∧ ready.size = some 64 ∧ ready.seed = some 0 ∧ ready.length = some 3 := by decide

theorem witness_step_runs :
    running.schedule = [] ∧ running.busy = true ∧
    decodeUop (running.urom[running.upc.toNat]'running.upc.isLt) = .ok .init := ⟨rfl, rfl, rfl⟩
theorem witness_step_illegal :
    decodeUop (({ running with upc := 19 } : State).urom[(19#5).toNat]'(19#5).isLt) = .error .illegalOp := rfl
theorem witness_step_idle :
    ready.busy = false ∧ ∃ ts, (withTurn .sequencer ready).schedule = .sequencer :: ts := ⟨rfl, [], rfl⟩
theorem witness_step_host : ∃ ts, (withTurn (.host .reset) running).schedule = .host .reset :: ts := ⟨[], rfl⟩

theorem witness_ctrl : (0x3#64).getLsbD 0 = true ∧ (0xFFFFFFFFFFFFFFFE#64).getLsbD 0 = false := by decide
theorem witness_size_class : (64 : Half) ≠ 128 ∧ (64 : Half) ≠ 256 := by decide
theorem witness_empty_cells :
    State.reset.seed = none ∧ State.reset.length = none ∧ State.reset.size = none := by decide

/-- A block that has completed a run. -/
def completed : State := { ready with done := true, upc := 18 }

theorem witness_outputs_shown :
    completed.busy = false ∧ completed.done = true ∧
    (0x48#7, 3) ∈ [(0x30#7, 0), (0x38#7, 1), (0x40#7, 2), (0x48#7, 3)] ∧ 7 < 8 ∧ 8 * 3 + 7 < 32 := by decide
theorem witness_outputs_drawn :
    0x28#7 ∈ [0x28#7, 0x30, 0x38, 0x40, 0x48] ∧ 0x48#7 ∈ [0x28#7, 0x30, 0x38, 0x40, 0x48] ∧
    running.busy = true ∧ ready.done = false := by decide
theorem witness_hidden_state :
    let s' := { running with h := ⟨1, 2, 3, 4⟩, out := outWrite zeroOut 0 5 }
    (0x30#7).toNat % 8 = 0 ∧ running.busy = s'.busy ∧ running.done = s'.done ∧ running.size = s'.size ∧
    running.seed = s'.seed ∧ running.length = s'.length ∧ running.draws = s'.draws ∧
    (running.busy = false → running.done = true → running.out = s'.out) := by decide
theorem witness_reserved :
    0x50 ≤ (0x50#7).toNat ∧ (0x50#7).toNat % 8 = 0 ∧ 0x50 ≤ (0x78#7).toNat ∧ (0x78#7).toNat % 8 = 0 := by decide
theorem witness_bad_accesses :
    (HostAccess.read 0x08 32).width ≠ 64 ∧ (HostAccess.write 0x7F 64 1).offset.toNat % 8 ≠ 0 := by decide
theorem witness_read_effect : (0x48#7).toNat % 8 = 0 := by decide
theorem witness_access_in_run : running.busy = true ∧ (HostAccess.write 0x00 64 1).wf = true := by decide

theorem witness_input_races :
    atBlock.busy = true ∧ (15#64).toNat < atBlock.lenL.toNat ∧ atBlock.inp.read (15#64).toNat ≠ some 0 := by decide
theorem witness_input_quiet :
    ready.busy = false ∧ atBlock.lenL.toNat ≤ (16#64).toNat ∧ atBlock.inp.read (15#64).toNat = some 15 := by decide

/-- A START about to be accepted. -/
def startDue : State := withTurn (.host (.access (.write 0x00 64 1))) ready

theorem witness_step_start : ∃ t, step startDue = .next t ∧ t.busy = true := ⟨_, rfl, rfl⟩
theorem witness_step_done : ∃ t, step { running with upc := 18 } = .next t ∧ t.done = true := ⟨_, rfl, rfl⟩
theorem witness_step_reset : ∃ t, step (withTurn (.host .reset) running) = .next t ∧ t.busy = false := ⟨_, rfl, rfl⟩
theorem witness_step_input :
    ∃ t, step (withTurn (.host (.setInput 2 (some 7))) ready) = .next t ∧ t.inp = [(2, 7)] := ⟨_, rfl, rfl⟩
theorem witness_other_instr : Instr.mixa ≠ .init ∧ Instr.mixa ≠ .block ∧ Instr.mixa ≠ .start := by decide

theorem witness_invariant_running : SeqInv atBlock := by constructor <;> decide
theorem witness_invariant_at_tail : SeqInv { atTail with rem := 0, cur := 16, ph := true } := by constructor <;> decide
theorem witness_invariant_step : ∃ t, step atBlock = .next t ∧ t.rem = 0 := ⟨_, rfl, rfl⟩
theorem witness_unwritten_fault :
    SeqInv (withTurn (.host (.access (.write 0x00 64 1))) State.reset) ∧
    step (withTurn (.host (.access (.write 0x00 64 1))) State.reset) = .fault .unwrittenParam :=
  ⟨by constructor <;> decide, rfl⟩
theorem witness_never_stuck :
    atBlock.schedule = [] ∧ ∀ a, a < atBlock.lenL.toNat → (readByte atBlock a).isSome = true := by decide
theorem witness_block_loop :
    atBlock.urom = uromImage ∧ atBlock.busy = true ∧ atBlock.schedule = [] ∧ atBlock.upc = 1 ∧
    0 < 16 ∧ atBlock.rem.toNat = 16 * 1 + 0 ∧ atBlock.cur.toNat + 16 * 1 < 2 ^ 64 ∧
    ∀ i, i < 16 * 1 → (readByte atBlock (atBlock.cur.toNat + i)).isSome = true := by decide

/-- START due on "abc" (program P1). -/
def digestDue : State := { startDue with inp := inputFrom 0 [0x61, 0x62, 0x63] }

theorem witness_digest_supplied : Supplies digestDue [0x61, 0x62, 0x63] := by
  intro a ha
  have h : a = 0 ∨ a = 1 ∨ a = 2 := by simp only [List.length_cons, List.length_nil] at ha; omega
  rcases h with rfl | rfl | rfl <;> rfl
theorem witness_digest :
    ([0x61, 0x62, 0x63] : List Byte).length < 2 ^ 64 ∧ digestDue.urom = uromImage ∧ digestDue.busy = false ∧
    digestDue.size = some 64 ∧ digestDue.seed = some 0 ∧
    digestDue.length = some (BitVec.ofNat 64 ([0x61, 0x62, 0x63] : List Byte).length) ∧
    (1#64).getLsbD 0 = true ∧ digestDue.schedule = [.host (.access (.write 0x00 64 1))] := by decide

theorem witness_prefix : 7 < 8 ∧ 7 < 32 ∧ 15 < 16 ∧ 15 < 32 := by decide
theorem witness_other_size : (100 : Half) ≠ 128 ∧ (100 : Half) ≠ 256 ∧ 8 ≤ 31 ∧ 16 ≤ 31 ∧ 31 < 32 := by decide

end Sys2Proof.Tests
end

/-! The host's register window (10_state.md section 4): what an admitted access does to each register. -/

namespace Sys2Proof.Machine

/-! Admitted accesses: a read or write at a multiple of 8 acts on the register at its offset (R30, R39). -/

theorem hostAct_read {off : BitVec 7} {r : HostReg} (ho : off.toNat % 8 = 0) (hr : regAt off = r) (s : State) :
    hostAct (.access (.read off 64)) s = .next (hostRead r s) :=
  hr ▸ hostAccess_read ho s

theorem hostAct_write {off : BitVec 7} {r : HostReg} (ho : off.toNat % 8 = 0) (hr : regAt off = r) (d : Word)
    (s : State) : hostAct (.access (.write off 64 d)) s = hostWrite r d s :=
  hr ▸ hostAccess_write ho d s

/-- Every named register lies below offset 0x50 (R30). -/
theorem regAt_reserved {off : BitVec 7} (h : 0x50 ≤ off.toNat) : regAt off = .reserved := by
  have off_ne (c : BitVec 7) (hc : c.toNat < 0x50) : off ≠ c := by
    rintro rfl
    omega
  simp [regAt, off_ne]

/-! What STATUS shows, what a filled parameter cell returns, and the size classes. -/

/-- The bits of STATUS (R32). -/
theorem statusWord_getLsbD (s : State) (i : Nat) :
    (statusWord s).getLsbD i = if i = 0 then s.busy else if i = 1 then s.done else false := by
  rw [statusWord, BitVec.getLsbD_setWidth, BitVec.getLsbD_append]
  match i with
  | 0 | 1 => simp
  | i + 2 => simp

theorem readSize_some {s : State} {v : Half} (h : s.size = some v) :
    readSize s = s.setReadData (v.setWidth 64) := by
  simp only [readSize, h]

theorem readCell_some {c : Option Word} {v : Word} (h : c = some v) (s : State) :
    readCell c s = s.setReadData v := by
  rw [h, readCell]

/-- The sizes other than 128 and 256 share class 0 (R14). -/
theorem sizeClass_other {v : Half} (h128 : v ≠ 128) (h256 : v ≠ 256) : sizeClass v = 0 := by
  rw [sizeClass, if_neg h128, if_neg h256]

/-- Settles O21: CTRL decodes its data by bit 0 alone, so a write is START or nothing. -/
theorem ctrlStartsOnBitZeroOnly : Obligations.CtrlStartsOnBitZeroOnly := by
  intro s
  refine ⟨fun d hd => ?_, fun d hd => ?_, hostAct_read rfl rfl s⟩
  · exact (hostAct_write rfl rfl d s).trans (writeCtrl_start hd s)
  · exact (hostAct_write rfl rfl d s).trans (writeCtrl_noStart hd s)

/-- Settles O22, bit by bit from `statusWord_getLsbD`. -/
theorem statusShowsBusyAndDone : Obligations.StatusShowsBusyAndDone := by
  refine ⟨fun s => ⟨statusWord s, hostAct_read rfl rfl s, ?_, ?_, fun i hi => ?_⟩,
    fun s d => hostAct_write rfl rfl d s, hostAct_read rfl rfl State.reset⟩
  · exact statusWord_getLsbD s 0
  · exact statusWord_getLsbD s 1
  · rw [statusWord_getLsbD, if_neg (by omega), if_neg (by omega)]

/-- Settles O23: each register's write, its read when filled, the size classes, and the empty cells of `State.reset`. -/
theorem parameterRegistersHoldWhatIsWritten : Obligations.ParameterRegistersHoldWhatIsWritten := by
  refine ⟨fun s d => ?writes, fun s v hv => ?size, fun s v hv => ?seed, fun s v hv => ?length,
    ⟨rfl, rfl, fun _ => sizeClass_other⟩, rfl, rfl, rfl⟩
  case writes => exact ⟨hostAct_write rfl rfl d s, hostAct_write rfl rfl d s, hostAct_write rfl rfl d s⟩
  case size => exact (hostAct_read rfl rfl s).trans (congrArg _ (readSize_some hv))
  case seed => exact (hostAct_read rfl rfl s).trans (congrArg _ (readCell_some hv s))
  case length => exact (hostAct_read rfl rfl s).trans (congrArg _ (readCell_some hv s))

/-- Settles O27, from `regAt_reserved`. -/
theorem reservedOffsetsDrawAndIgnore : Obligations.ReservedOffsetsDrawAndIgnore := by
  intro s off hlo ho
  have hr := regAt_reserved hlo
  exact ⟨fun d => hostAct_write ho hr d s, hostAct_read ho hr s⟩

end Sys2Proof.Machine

/-! The coding of micro-operations (30_encoding.md): decoding and encoding are inverse to each other. -/

namespace Sys2Proof.Laws

/-- Every operation's own word decodes to it. -/
theorem decode_encode : ∀ i : Instr, decode (encode i) = .ok i
  | .init => Coding.init rfl
  | .block => Coding.block rfl
  | .mixa => Coding.mixa rfl
  | .mixb => Coding.mixb rfl
  | .tail => Coding.tail rfl
  | .sqz0 => Coding.sqz0 rfl
  | .sqz1 => Coding.sqz1 rfl
  | .sqz2 => Coding.sqz2 rfl
  | .sqz3 => Coding.sqz3 rfl
  | .chk0 => Coding.chk0 rfl
  | .chk1 => Coding.chk1 rfl
  | .chk2 => Coding.chk2 rfl
  | .chk3 => Coding.chk3 rfl
  | .done => Coding.done rfl
  | .start => Coding.start rfl

/-- Every word is made of its OP, RSV and ARG fields (R63). -/
theorem uop_fields_append (w : Byte) : uopOp w ++ uopRsv w ++ uopArg w = w := by
  have high : uopOp w ++ uopRsv w = w.extractLsb' 2 6 := BitVec.extractLsb'_append_extractLsb'_eq_extractLsb' rfl
  rw [high]
  exact (BitVec.extractLsb'_append_extractLsb'_eq_extractLsb' rfl).trans BitVec.extractLsb'_eq_self

theorem uopWord_fields {w : Byte} (h : uopRsv w = 0#2) : uopWord (uopOp w) (uopArg w) = w := by
  rw [uopWord, ← h]
  exact uop_fields_append w

theorem withoutArg_ok {w : Byte} {i j : Instr} (h : withoutArg w j = .ok i) : uopArg w = 0#2 ∧ j = i := by
  unfold withoutArg at h
  split at h
  case isTrue harg => exact ⟨harg, Except.ok.inj h⟩
  case isFalse => cases h

/-- The rows of R65 without an operand: ARG is 00, so the word is the one of its OP alone. -/
theorem encode_of_withoutArg {w : Byte} {i j : Instr} {op : BitVec 4} (hop : uopOp w = op)
    (hj : encode j = .uop (uopWord op 0#2)) (h : withoutArg w j = .ok i) :
    encode i = .uop (uopWord (uopOp w) (uopArg w)) := by
  obtain ⟨harg, rfl⟩ := withoutArg_ok h
  rw [hj, hop, harg]

theorem encode_sqzOfSlot : ∀ arg : BitVec 2, encode (sqzOfSlot arg) = .uop (uopWord 0x6#4 arg) := by decide

theorem encode_chkOfThreshold : ∀ arg : BitVec 2, encode (chkOfThreshold arg) = .uop (uopWord 0x7#4 arg) := by decide

/-- A micro-operation word that decodes is the encoding of what it decodes to. -/
theorem encode_of_decodeUop {w : Byte} {i : Instr} (h : decodeUop w = .ok i) : encode i = .uop w := by
  have op_eq {n : Nat} (hn : (uopOp w).toNat = n) : uopOp w = BitVec.ofNat 4 n := by
    rw [← hn, BitVec.ofNat_toNat, BitVec.setWidth_eq]
  unfold decodeUop at h
  split at h
  case isTrue => cases h
  case isFalse hrsv =>
    rw [← uopWord_fields (not_not.mp hrsv)]
    split at h
    case h_6 hop =>
      cases h
      rw [encode_sqzOfSlot, op_eq hop]
    case h_7 hop =>
      cases h
      rw [encode_chkOfThreshold, op_eq hop]
    case h_9 => cases h
    all_goals exact encode_of_withoutArg (op_eq ‹_›) rfl h

/-- The words that decode are the operations' own words, each to its operation (R66). -/
theorem decodeUop_ok_iff {w : Byte} {i : Instr} : decodeUop w = .ok i ↔ encode i = .uop w := by
  refine ⟨encode_of_decodeUop, fun h => ?_⟩
  have hd : decode (.uop w) = .ok i := h ▸ decode_encode i
  exact hd

/-- Settles O1: by `decodeUop_ok_iff` a word decodes to an operation exactly when it is that operation's own word. -/
theorem decoderAcceptsExactlyTheLegalWords : Obligations.DecoderAcceptsExactlyTheLegalWords := by
  intro w i
  rw [decodeUop_ok_iff]
  cases i <;> simp [encode, uopWord, eq_comm]

end Sys2Proof.Laws

/-! READ64 (40_normalizer.md): the bytes of an assembled input word. -/

namespace Sys2Proof.Machine

/-- Byte k of the word assembled from b 0 to b 7 is b k (R80). -/
theorem leWord_range_extract (b : Nat → Byte) {k : Nat} (hk : k < 8) :
    (leWord ((List.range 8).map b)).extractLsb' (8 * k) 8 = b k := by
  rw [leWord_extract _ k hk, List.getElem?_map, List.getElem?_range hk, Option.map_some, Option.getD_some]

/-- Settles O7: `readWord_present` names the word assembled from the bytes present, and `readWord_absent` is R48's case. -/
theorem inputWordIsLittleEndian : Obligations.InputWordIsLittleEndian := by
  intro s a
  refine ⟨fun b present => ?_, readWord_absent s a⟩
  exact ⟨_, readWord_present s a b present, fun k hk => leWord_range_extract b hk⟩

end Sys2Proof.Machine

/-! MIXA and MIXB (41_mixing.md): the micro-operations as record updates, and the lanes the primitives give. -/

namespace Sys2Proof.Machine

/-- MIXA as one record update (R89). -/
theorem exec_mixa (s : State) :
    exec .mixa s = .next { s with h := mixA Config.mixConst s.h, upc := s.upc + 1 } := rfl

/-- MIXB as one record update, with the latched seed (R91, R93). -/
theorem exec_mixb (s : State) :
    exec .mixb s = .next { s with h := mixB Config.mixConst s.seedL s.h, upc := s.upc + 1 } := rfl

/-- Settles O10: `exec_mixa` gives the next state, and the lanes of primitive A are the rule's four values. -/
theorem mixaMixesAllFourWords : Obligations.MixaMixesAllFourWords := by
  intro s k a b c d
  have lanes : mixA k s.h = ⟨a, b, c, d⟩ := rfl
  rw [← lanes]
  exact exec_mixa s

/-- Settles O11: `exec_mixb` gives the next state, and primitive B keeps words 0 and 3. -/
theorem mixbMixesWordsOneAndTwo : Obligations.MixbMixesWordsOneAndTwo := by
  intro s k a b
  have lanes : mixB k s.seedL s.h = ⟨s.h.h0, a, b, s.h.h3⟩ := rfl
  rw [← lanes]
  exact exec_mixb s

end Sys2Proof.Machine

/-! INIT and BLOCK (42_driver_blocks.md): INIT as a record update, and BLOCK's three cases. -/

namespace Sys2Proof.Machine

/-- INIT as one record update (R102). -/
theorem exec_init (s : State) :
    exec .init s = .next { s with
      out := zeroOut
      h := initLanes s.seedL s.lenL
      cur := 0
      rem := s.lenL
      ph := false
      upc := s.upc + 1 } := rfl

/-- BLOCK with 16 bytes left and both input words defined absorbs them (R103). -/
theorem exec_block_absorbs {s : State} {g1 g2 : Word} (hr : 16 ≤ s.rem.toNat) (h1 : readWord s s.cur.toNat = some g1)
    (h2 : readWord s (s.cur.toNat + 8) = some g2) : exec .block s = .next (absorbBlock g1 g2 s) := by
  simp only [exec, execBlock, if_pos hr, h1, h2]

/-- BLOCK with 16 bytes left and either input word undefined has no step (R48). -/
theorem exec_block_stuck {s : State} (hr : 16 ≤ s.rem.toNat)
    (h : readWord s s.cur.toNat = none ∨ readWord s (s.cur.toNat + 8) = none) :
    exec .block s = .refused .absentInput := by
  simp only [exec, execBlock, if_pos hr]
  rcases h with h1 | h2
  · rw [h1]; rfl
  · rw [h2]; cases readWord s s.cur.toNat <;> rfl

/-- BLOCK with fewer than 16 bytes left exits the loop (R103). -/
theorem exec_block_exits {s : State} (hr : s.rem.toNat < 16) : exec .block s = .next s.advance :=
  if_neg (Nat.not_le.mpr hr)

/-- An absent byte among the 16 of a block lies in its first or its second word (R80, R104). -/
theorem readWord_block_absent {s : State} {a : Nat} (h : ∃ i, i < 16 ∧ readByte s (a + i) = none) :
    readWord s a = none ∨ readWord s (a + 8) = none := by
  obtain ⟨i, hi, absent⟩ := h
  by_cases first : i < 8
  · exact .inl (readWord_absent s a ⟨i, first, absent⟩)
  · have second : a + 8 + (i - 8) = a + i := by omega
    exact .inr (readWord_absent s (a + 8) ⟨i - 8, by omega, second ▸ absent⟩)

/-- The two words of a block whose 16 bytes are b 0 to b 15 (R80, R104). -/
theorem readWord_block_present {s : State} {a : Nat} {b : Nat → Byte}
    (h : ∀ i, i < 16 → readByte s (a + i) = some (b i)) :
    readWord s a = some (leWord ((List.range 8).map b)) ∧
    readWord s (a + 8) = some (leWord ((List.range 8).map fun i => b (8 + i))) := by
  constructor
  · exact readWord_present s a b fun i hi => h i (by omega)
  · exact readWord_present s (a + 8) _ fun i hi => Nat.add_assoc a 8 i ▸ h (8 + i) (by omega)

/-- Settles O8: `exec_init` gives the next state, and `zeroOut` is 0 at every byte. -/
theorem initSetsUpTheRun : Obligations.InitSetsUpTheRun := by
  intro s
  exact ⟨_, exec_init s, zeroOut_getElem, rfl⟩

/-- Settles O9: BLOCK's three cases, with its words read from the 16 bytes at CUR, and the primitive chosen by PH. -/
theorem blockAbsorbsOrExits : Obligations.BlockAbsorbsOrExits := by
  intro s
  refine ⟨fun b hr present => ?absorbs, fun hr absent => ?stuck, exec_block_exits⟩
  case absorbs =>
    obtain ⟨h1, h2⟩ := readWord_block_present present
    rw [exec_block_absorbs hr h1 h2, absorbBlock, mixByPhase]
    cases s.ph <;> rfl
  case stuck => exact exec_block_stuck hr (readWord_block_absent absent)

end Sys2Proof.Machine

/-! TAIL (43_tail.md): its three cases, and the lane sums of TAILMAP. -/

namespace Sys2Proof.Machine

/-- TAIL with every byte it needs present stores the lanes it absorbs into (R112). -/
theorem exec_tail_adds {s : State} {l : Lanes} (hr : s.rem.toNat < 16) (hl : absorbTail s tailMap s.h = some l) :
    exec .tail s = .next { s with h := l, upc := s.upc + 1 } := by
  simp only [exec, execTail, if_neg (Nat.not_le.mpr hr), hl, State.setLanes, State.advance]

/-- TAIL with a byte it needs absent has no step (R48). -/
theorem exec_tail_stuck {s : State} (hr : s.rem.toNat < 16) (hl : absorbTail s tailMap s.h = none) :
    exec .tail s = .refused .absentInput := by
  simp only [exec, execTail, if_neg (Nat.not_le.mpr hr), hl, stuck]

/-- TAIL with 16 or more bytes left raises TAIL_REM (R116). -/
theorem exec_tail_fault {s : State} (hr : 16 ≤ s.rem.toNat) : exec .tail s = .fault .tailRem :=
  if_pos hr

/-- Every tail byte has a row of TAILMAP (R113). -/
theorem exists_mem_tailMap_index : ∀ i < 15, ∃ e ∈ tailMap, e.index = i := by decide

/-- An absent byte below REM is one that a row of TAILMAP needs. -/
theorem absorbTail_tailMap_absent {s : State} (hr : s.rem.toNat < 16)
    (h : ∃ i, i < s.rem.toNat ∧ readByte s (s.cur.toNat + i) = none) : absorbTail s tailMap s.h = none := by
  obtain ⟨i, hi, absent⟩ := h
  obtain ⟨e, he, rfl⟩ := exists_mem_tailMap_index i (by omega)
  exact absorbTail_absent s tailMap s.h ⟨e, he, hi, absent⟩

@[simp] theorem Lanes.add_zero (h : Lanes) (lane : Fin 4) : h.add lane 0#64 = h := by
  match lane with
  | 0 | 1 | 2 | 3 => simp [Lanes.add]

/-- A row at or above REM may be taken to add the word 0. -/
theorem Lanes.add_below_rem (h : Lanes) (e : TailEntry) (b : Byte) (n : Nat) :
    (if e.index < n then h.add e.lane (e.value b) else h) =
      h.add e.lane ((if e.index < n then b.setWidth 64 else 0#64) <<< e.shift) := by
  split
  · rfl
  · rw [BitVec.zero_shiftLeft, Lanes.add_zero]

/-- What the fifteen rows of TAILMAP add to each lane (R113). -/
theorem tailMap_foldl_add (z : Nat → Word) (h : Lanes) :
    tailMap.foldl (fun h e => h.add e.lane (z e.index <<< e.shift)) h =
      ⟨h.h0 + (z 14 <<< 56) + (z 10 <<< 24) + (z 6 <<< 48) + (z 2 <<< 16),
       h.h1 + (z 13 <<< 48) + (z 9 <<< 16) + (z 5 <<< 40) + (z 1 <<< 8),
       h.h2 + (z 12 <<< 40) + (z 8 <<< 8) + (z 4 <<< 32) + z 0,
       h.h3 + (z 11 <<< 32) + z 7 + (z 3 <<< 24)⟩ := by
  simp only [tailMap, List.foldl_cons, List.foldl_nil, Lanes.add, BitVec.shiftLeft_zero]

/-- Settles O12: TAIL's three cases; the absorbed lanes are `absorbTail_present`'s fold, whose sums `tailMap_foldl_add`
writes out. -/
theorem tailAddsEveryByteIntoItsLane : Obligations.TailAddsEveryByteIntoItsLane := by
  intro s
  refine ⟨fun b hr present => ?adds, fun hr absent => ?stuck, exec_tail_fault⟩
  case adds =>
    intro z
    have absorbed := absorbTail_present s b present tailMap s.h
    simp only [Lanes.add_below_rem] at absorbed
    exact exec_tail_adds hr (absorbed.trans (congrArg some (tailMap_foldl_add z s.h)))
  case stuck => exact exec_tail_stuck hr (absorbTail_tailMap_absent hr absent)

end Sys2Proof.Machine

/-! SQZ, CHK and DONE (44_finalize_squeeze.md): the operations with an operand by their ARG, each as a record update. -/

namespace Sys2Proof.Machine

/-- A row of an operation's four operands is the operation at that ARG (R64). -/
theorem exists_arg_of_mem_rows {f : BitVec 2 → Instr} {i : Instr} {n : Nat}
    (h : (i, n) ∈ [(f 0, 0), (f 1, 1), (f 2, 2), (f 3, 3)]) : ∃ a : BitVec 2, f a = i ∧ a.toNat = n := by
  have h' : (i, n) ∈ [0#2, 1#2, 2#2, 3#2].map fun a => (f a, a.toNat) := h
  obtain ⟨a, -, row⟩ := List.mem_map.mp h'
  exact ⟨a, Prod.mk.inj row⟩

/-- SQZ j squeezes into slot j. -/
theorem exec_sqzOfSlot (j : BitVec 2) (s : State) : exec (sqzOfSlot j) s = squeeze j s := by
  match j with
  | 0#2 | 1#2 | 2#2 | 3#2 => rfl

/-- CHK c tests against the threshold c. -/
theorem exec_chkOfThreshold (c : BitVec 2) (s : State) : exec (chkOfThreshold c) s = checkClass c s := by
  match c with
  | 0#2 | 1#2 | 2#2 | 3#2 => rfl

/-- CHK c as one record update (R121). -/
theorem checkClass_eq (c : BitVec 2) (s : State) :
    checkClass c s = .next { s with upc := if s.scls.toNat < c.toNat then 18 else s.upc + 1 } := by
  unfold checkClass
  split <;> rfl

/-- STATUS after the end of a run (R122). -/
theorem statusWord_setDone (s : State) : statusWord s.setDone = 2 := by
  rw [statusWord, State.setDone_done, State.setDone_busy]
  decide

/-- Settles O14: `squeeze_eq` gives the next state, and `outWrite_getElem` its OUT byte by byte. -/
theorem squeezeWritesOneSlot : Obligations.SqueezeWritesOneSlot := by
  intro s i n hrow
  obtain ⟨j, rfl, rfl⟩ := exists_arg_of_mem_rows (f := sqzOfSlot) hrow
  have step := (exec_sqzOfSlot j s).trans (squeeze_eq j s)
  exact ⟨_, step, fun k hk => outWrite_getElem s.out (slotOffset j) (squeezeWord s.h) k hk, rfl⟩

/-- Settles O15, by `checkClass_eq` for each threshold. -/
theorem checkJumpsBelowItsThreshold : Obligations.CheckJumpsBelowItsThreshold := by
  intro s i n hrow
  obtain ⟨c, rfl, rfl⟩ := exists_arg_of_mem_rows (f := chkOfThreshold) hrow
  exact (exec_chkOfThreshold c s).trans (checkClass_eq c s)

/-- Settles O17: DONE is `State.setDone`, whose STATUS is `statusWord_setDone`. -/
theorem doneEndsTheRun : Obligations.DoneEndsTheRun := by
  intro s
  exact ⟨s.setDone, rfl, rfl, statusWord_setDone s⟩

end Sys2Proof.Machine

/-! One step of the machine: every way in which it can answer a next state, named once. -/

namespace Sys2Proof.Machine

/-- The state with the turn that is due taken off the schedule (log entry 1). -/
def State.popTurn (s : State) : State := { s with schedule := s.schedule.tail }

/-- The turn that is due is the sequencer's (R15; log entry 1). -/
def SequencerDue (s : State) : Prop := s.schedule = [] ∨ ∃ ts, s.schedule = .sequencer :: ts

/-- A step of the sequencer is the sequencer's turn. -/
theorem step_sequencer {s : State} (h : SequencerDue s) : step s = sequencerTurn s.popTurn := by
  rcases h with h | ⟨ts, h⟩
  · have pop : s.popTurn = s := by rw [State.popTurn, h, List.tail_nil, ← h]
    rw [step, takeTurn_nil h, pop]
    rfl
  · rw [step, takeTurn_cons h, State.popTurn, h]
    rfl

/-- A step of the host is the action that is due. -/
theorem step_host {s : State} {a : HostAction} {ts : List Turn} (h : s.schedule = .host a :: ts) :
    step s = hostAct a s.popTurn := by
  rw [step, takeTurn_cons h, State.popTurn, h]
  rfl

/-- One of the two agents is due. -/
theorem sequencerDue_or_host (s : State) : SequencerDue s ∨ ∃ a ts, s.schedule = .host a :: ts := by
  match h : s.schedule with
  | [] => exact .inl (.inl h)
  | .sequencer :: ts => exact .inl (.inr ⟨ts, h⟩)
  | .host a :: ts => exact .inr ⟨a, ts, rfl⟩

/-- What a micro-operation that completes can do: INIT and DONE in one way, BLOCK in two, and every other one
changes H, OUT and UPC only. -/
inductive OpEffect (s : State) : Instr → State → Prop
  | init : OpEffect s .init { s with
      out := zeroOut, h := initLanes s.seedL s.lenL, cur := 0, rem := s.lenL, ph := false, upc := s.upc + 1 }
  | absorb (g1 g2 : Word) (full : 16 ≤ s.rem.toNat) : OpEffect s .block (absorbBlock g1 g2 s)
  | exit (short : s.rem.toNat < 16) : OpEffect s .block s.advance
  | done : OpEffect s .done s.setDone
  | datapath {i : Instr} {l : Lanes} {o : Vector Byte 32} {u : BitVec 5}
      (other : i ≠ .init ∧ i ≠ .block ∧ i ≠ .done) (next : u = s.upc + 1 ∨ u = doneAddr) :
      OpEffect s i { s with h := l, out := o, upc := u }

theorem exec_effect {i : Instr} (hi : i ≠ .start) {s t : State} (h : exec i s = .next t) : OpEffect s i t := by
  cases i with
  | start => exact absurd rfl hi
  | init => cases h; exact .init
  | done => cases h; exact .done
  | block =>
    rcases execBlock_next h with ⟨full, g1, g2, -, -, rfl⟩ | ⟨short, rfl⟩
    · exact .absorb g1 g2 full
    · exact .exit short
  | tail =>
    obtain ⟨-, l, -, rfl⟩ := execTail_next h
    exact .datapath (by decide) (.inl rfl)
  | mixa | mixb => cases h; exact .datapath (by decide) (.inl rfl)
  | sqz0 | sqz1 | sqz2 | sqz3 =>
    have h' := (squeeze_eq _ s).symm.trans h
    injection h' with h'
    exact h' ▸ .datapath (by decide) (.inl rfl)
  | chk0 | chk1 | chk2 | chk3 =>
    have h' := (checkClass_eq _ s).symm.trans h
    injection h' with h'
    exact h' ▸ .datapath (by decide) (by split; exacts [.inr rfl, .inl rfl])

/-- What a step that completes can do. -/
inductive StepEffect (s : State) : State → Prop
  | idle (due : SequencerDue s) (idle : s.busy = false) : StepEffect s s.popTurn
  | op {i : Instr} {t : State} (due : SequencerDue s) (busy : s.busy = true)
      (fetched : decodeUop (fetchWord s) = .ok i) (frame : RunFrame s.popTurn t) (effect : OpEffect s.popTurn i t) :
      StepEffect s t
  | read {v : Option Word} {n : Nat} : StepEffect s { s.popTurn with readData := v, draws := n }
  | cells {z : Option Half} {sd ln : Option Word} (size : s.size.isSome → z.isSome) (seed : s.seed.isSome → sd.isSome)
      (length : s.length.isSome → ln.isSome) : StepEffect s { s.popTurn with size := z, seed := sd, length := ln }
  | start {d : Word} {ts : List Turn} {z : Half} {sd ln : Word}
      (due : s.schedule = .host (.access (.write 0x00 64 d)) :: ts) (bit : d.getLsbD 0 = true) (idle : s.busy = false)
      (size : s.size = some z) (seed : s.seed = some sd) (length : s.length = some ln) :
      StepEffect s (acceptStart z sd ln s.popTurn)
  | input {addr : Word} {v : Option Byte} {ts : List Turn} (due : s.schedule = .host (.setInput addr v) :: ts) :
      StepEffect s (supplyInput addr v s.popTurn)
  | reset {ts : List Turn} (due : s.schedule = .host .reset :: ts) : StepEffect s (resetBlock s.popTurn)

/-- The effect of a register access that completes. -/
theorem hostAccess_effect {s t : State} {a : HostAccess} {ts : List Turn} (due : s.schedule = .host (.access a) :: ts)
    (h : hostAccess a s.popTurn = .next t) : StepEffect s t := by
  rcases hostAccess_next h with ⟨v, n, rfl⟩ | ⟨d, rfl, bit, hstart⟩ | ⟨z, sd, ln, rfl, size, seed, length⟩
  · exact .read
  · rcases execStart_next hstart with ⟨-, rfl⟩ | ⟨idle, z, sd, ln, size, seed, length, rfl⟩
    · exact .cells id id id
    · exact .start due bit idle size seed length
  · exact .cells size seed length

/-- Every step that completes has one of the effects named in `StepEffect`. -/
theorem step_effect {s t : State} (h : step s = .next t) : StepEffect s t := by
  rcases sequencerDue_or_host s with due | ⟨a, ts, due⟩
  · rw [step_sequencer due] at h
    rcases sequencerTurn_next h with ⟨idle, rfl⟩ | ⟨busy, i, fetched, hexec⟩
    · exact .idle due idle
    · have hi := decodeUop_ne_start fetched
      exact .op due busy fetched (exec_runFrame hi hexec) (exec_effect hi hexec)
  · rw [step_host due] at h
    cases a with
    | access a => exact hostAccess_effect due h
    | setInput addr v => cases h; exact .input due
    | reset => cases h; exact .reset due

end Sys2Proof.Machine

/-! The sequencer's invariant (10_state.md section 3): every step keeps it. -/

namespace Sys2Proof.Machine

/-! Where the program of R130 holds the operations with rules of their own; its last address, 18, holds DONE. -/

theorem romInstr_isSome : ∀ n ≤ 18, (romInstr n).isSome = true := by decide

theorem romInstr_init : ∀ n ≤ 18, romInstr n = some .init → n = 0 := by decide

theorem romInstr_block : ∀ n ≤ 18, romInstr n = some .block → n = 1 := by decide

theorem romInstr_tail : ∀ n ≤ 18, romInstr n = some .tail → n = 3 := by decide

theorem lt_of_romInstr_ne_done : ∀ n ≤ 18, romInstr n ≠ some .done → n < 18 := by decide

theorem two_le_of_romInstr : ∀ n ≤ 18, romInstr n ≠ some .init → romInstr n ≠ some .block → 2 ≤ n := by decide

/-- UPC does not wrap within the program (R22). -/
theorem toNat_upc_add_one {u : BitVec 5} (h : u.toNat ≤ 18) : (u + 1).toNat = u.toNat + 1 := by
  rw [BitVec.toNat_add]
  exact Nat.mod_eq_of_lt (Nat.lt_of_le_of_lt (Nat.succ_le_succ h) (by decide))

/-! The fields of the state after one absorbed block (R103). -/

theorem toNat_absorbBlock_cur {s : State} (g1 g2 : Word) (h : s.cur.toNat + 16 < 2 ^ 64) :
    (absorbBlock g1 g2 s).cur.toNat = s.cur.toNat + 16 :=
  BitVec.toNat_add_of_lt h

theorem toNat_absorbBlock_rem {s : State} (g1 g2 : Word) (h : 16 ≤ s.rem.toNat) :
    (absorbBlock g1 g2 s).rem.toNat = s.rem.toNat - 16 :=
  BitVec.toNat_sub_of_le h

/-- The clauses of `SeqInv` about where a run stands. -/
structure RunPoint (s : State) : Prop where
  upc_le : s.upc.toNat ≤ 18
  cursor : 1 ≤ s.upc.toNat → s.cur.toNat + s.rem.toNat = s.lenL.toNat ∧ s.cur.toNat % 16 = 0
  phase  : 1 ≤ s.upc.toNat → s.ph = decide (s.cur.toNat / 16 % 2 = 1)
  rem_lt : 2 ≤ s.upc.toNat → s.rem.toNat < 16

theorem SeqInv.runPoint {s : State} (h : SeqInv s) (busy : s.busy = true) : RunPoint s :=
  ⟨h.upc_le busy, h.cursor busy, h.phase busy, h.rem_lt busy⟩

/-- Absorbing a block in the loop keeps CUR + REM and inverts PH with the parity of CUR / 16 (R103, R106). -/
theorem RunPoint.absorbBlock {s : State} (h : RunPoint s) (g1 g2 : Word) (full : 16 ≤ s.rem.toNat)
    (upc : s.upc.toNat = 1) : RunPoint (absorbBlock g1 g2 s) := by
  obtain ⟨sum, aligned⟩ := h.cursor upc.ge
  have cur := toNat_absorbBlock_cur (s := s) g1 g2 (by omega)
  have rem := toNat_absorbBlock_rem g1 g2 full
  have upc' : (Machine.absorbBlock g1 g2 s).upc = s.upc := rfl
  have lenL : (Machine.absorbBlock g1 g2 s).lenL = s.lenL := rfl
  have ph : (Machine.absorbBlock g1 g2 s).ph = !s.ph := rfl
  refine ⟨h.upc_le, fun _ => ?_, fun _ => ?_, fun two => ?_⟩
  · rw [cur, rem, lenL]
    omega
  · rw [ph, cur, h.phase upc.ge, ← decide_not, decide_eq_decide]
    omega
  · rw [upc'] at two
    omega

/-- Every operation but DONE keeps the run's point, at the address where the program holds it. -/
theorem OpEffect.keeps_runPoint {s t : State} {i : Instr} (effect : OpEffect s i t) (h : RunPoint s)
    (fetched : romInstr s.upc.toNat = some i) (hi : i ≠ .done) : RunPoint t := by
  have next := toNat_upc_add_one h.upc_le
  cases effect with
  | done => exact absurd rfl hi
  | init =>
    rw [romInstr_init _ h.upc_le fetched] at next
    exact ⟨next.trans_le (by decide), fun _ => ⟨Nat.zero_add _, rfl⟩, fun _ => by simp,
      fun two => absurd (two.trans_eq next) (by decide)⟩
  | absorb g1 g2 full => exact h.absorbBlock g1 g2 full (romInstr_block _ h.upc_le fetched)
  | exit short =>
    have upc := romInstr_block _ h.upc_le fetched
    have le : s.advance.upc.toNat ≤ 18 := by
      rw [State.advance_upc, next, upc]
      decide
    exact ⟨le, fun _ => h.cursor upc.ge, fun _ => h.phase upc.ge, fun _ => short⟩
  | datapath other hu =>
    obtain ⟨ne_init, ne_block, ne_done⟩ := other
    have two := two_le_of_romInstr _ h.upc_le (by simpa [fetched] using ne_init) (by simpa [fetched] using ne_block)
    have lt := lt_of_romInstr_ne_done _ h.upc_le (by simpa [fetched] using ne_done)
    refine ⟨?_, fun _ => h.cursor (by omega), fun _ => h.phase (by omega), fun _ => h.rem_lt two⟩
    rcases hu with rfl | rfl
    · exact next.le.trans lt
    · exact Nat.le_refl 18

/-- Every operation but DONE leaves the status bits (R28). -/
theorem OpEffect.status {s t : State} {i : Instr} (effect : OpEffect s i t) :
    (i ≠ .done ∧ t.busy = s.busy ∧ t.done = s.done) ∨ (i = .done ∧ t.busy = false ∧ t.done = true) := by
  cases effect with
  | done => exact .inr ⟨rfl, rfl, rfl⟩
  | init | absorb | exit => exact .inl ⟨by decide, rfl, rfl⟩
  | datapath other =>
    obtain ⟨-, -, ne_done⟩ := other
    exact .inl ⟨ne_done, rfl, rfl⟩

/-- Taking the due turn off the schedule keeps the invariant, which does not speak of the schedule. -/
theorem SeqInv.popTurn {s : State} (h : SeqInv s) : SeqInv s.popTurn := { h with }

/-- Every micro-operation keeps the invariant, at the address where the program holds it. -/
theorem SeqInv.op {s t : State} {i : Instr} (h : SeqInv s) (busy : s.busy = true)
    (fetched : romInstr s.upc.toNat = some i) (frame : RunFrame s t) (effect : OpEffect s i t) : SeqInv t := by
  have running (tbusy : t.busy = true) : t.done = s.done ∧ RunPoint t := by
    rcases effect.status with ⟨hi, -, done⟩ | ⟨-, tidle, -⟩
    · exact ⟨done, effect.keeps_runPoint (h.runPoint busy) fetched hi⟩
    · rw [tidle] at tbusy
      cases tbusy
  exact {
    inp_wf := frame.inp ▸ h.inp_wf
    raced_wf := frame.raced ▸ h.raced_wf
    urom_eq := frame.urom ▸ h.urom_eq
    scls_le := frame.scls ▸ h.scls_le
    not_both := fun ⟨b, d⟩ => h.not_both ⟨busy, (running b).1 ▸ d⟩
    written := fun _ => by rw [frame.size, frame.seed, frame.length]; exact h.written busy
    upc_le := fun b => (running b).2.upc_le
    cursor := fun b => (running b).2.cursor
    phase := fun b => (running b).2.phase
    rem_lt := fun b => (running b).2.rem_lt }

/-- START latches a size class of at most 2 (R14). -/
theorem sizeClass_le (z : Half) : (sizeClass z).toNat ≤ 2 := by
  unfold sizeClass
  split_ifs <;> decide

/-- An accepted START keeps the invariant: the run stands at address 0, before INIT. -/
theorem SeqInv.acceptStart {s : State} (h : SeqInv s) {z : Half} {sd ln : Word} (size : s.size = some z)
    (seed : s.seed = some sd) (length : s.length = some ln) : SeqInv (acceptStart z sd ln s) where
  inp_wf := h.inp_wf
  raced_wf := Memory.wf_nil
  urom_eq := h.urom_eq
  scls_le := sizeClass_le z
  not_both := fun ⟨_, done⟩ => Bool.false_ne_true done
  written := fun _ => ⟨Option.isSome_of_eq_some size, Option.isSome_of_eq_some seed, Option.isSome_of_eq_some length⟩
  upc_le := fun _ => Nat.zero_le _
  cursor := fun _ one => absurd (a := 1 ≤ 0) one (by decide)
  phase := fun _ one => absurd (a := 1 ≤ 0) one (by decide)
  rem_lt := fun _ two => absurd (a := 2 ≤ 0) two (by decide)

/-- Supplying an input byte keeps the invariant: it writes the two stores only, and keeps both canonical. -/
theorem SeqInv.supplyInput {s : State} (h : SeqInv s) (addr : Word) (v : Option Byte) :
    SeqInv (supplyInput addr v s) := by
  have inp_wf : (Machine.supplyInput addr v s).inp.wf = true :=
    supplyInput_inp addr v s ▸ Memory.wf_put v addr.isLt h.inp_wf
  have raced_wf : (Machine.supplyInput addr v s).raced.wf = true := by
    rcases supplyInput_raced addr v s with same | drawn
    · exact same ▸ h.raced_wf
    · exact drawn ▸ Memory.wf_write _ addr.isLt h.raced_wf
  rw [supplyInput_eq]
  exact { h with inp_wf, raced_wf }

/-- Settles O38: right after reset BUSY is 0, the stores are empty and SCLS is the model's 0. -/
theorem invariantHoldsAtReset : Obligations.InvariantHoldsAtReset := by
  unfold Obligations.InvariantHoldsAtReset
  constructor <;> decide

/-- A reset keeps the invariant: the block is as right after reset, with UROM and IN as they were. -/
theorem SeqInv.resetBlock {s : State} (h : SeqInv s) : SeqInv (resetBlock s) :=
  { invariantHoldsAtReset with inp_wf := h.inp_wf, urom_eq := h.urom_eq }

/-- Settles O39, by cases on what the step did (`step_effect`). -/
theorem stepKeepsTheInvariant : Obligations.StepKeepsTheInvariant := by
  intro s t h hstep
  cases step_effect hstep with
  | idle => exact h.popTurn
  | op _ busy fetched frame effect =>
    exact h.popTurn.op busy ((decode_fetch_iff h.urom_eq _).mp fetched) frame effect
  | read => exact { h with }
  | cells size seed length =>
    exact { h with written := fun b => (h.written b).imp size (.imp seed length) }
  | start _ _ _ size seed length => exact h.popTurn.acceptStart size seed length
  | input => exact h.popTurn.supplyInput _ _
  | reset => exact h.popTurn.resetBlock

end Sys2Proof.Machine

/-! Rules over every step of the machine (10_state.md section 3): who writes the latches, the status bits, UROM and
IN, by cases on what the step did. -/

namespace Sys2Proof.Machine

/-- Settles O32, by cases on what the step did: only an accepted START and a reset write a latch. -/
theorem latchesAreWrittenByStartOnly : Obligations.LatchesAreWrittenByStartOnly := by
  intro s t hstep
  cases step_effect hstep with
  | idle | read | cells => exact .inl ⟨rfl, rfl, rfl⟩
  | op _ _ _ frame => exact .inl ⟨frame.seedL, frame.lenL, frame.scls⟩
  | start due bit idle size seed length =>
    exact .inr (.inl ⟨idle, rfl, seed, length, ⟨_, size, rfl⟩, _, _, due, bit⟩)
  | input =>
    rw [supplyInput_eq]
    exact .inl ⟨rfl, rfl, rfl⟩
  | reset due => exact .inr (.inr ⟨_, due⟩)

/-- Settles O33, by cases on what the step did: among the micro-operations DONE alone writes the status bits. -/
theorem statusBitsAreWrittenByStartAndDoneOnly : Obligations.StatusBitsAreWrittenByStartAndDoneOnly := by
  intro s t hstep
  cases step_effect hstep with
  | idle | read | cells => exact .inl ⟨rfl, rfl⟩
  | op due busy fetched _ effect =>
    rcases effect.status with ⟨-, same⟩ | ⟨rfl, idle, done⟩
    · exact .inl same
    · exact .inr (.inr (.inl ⟨idle, done, busy, fetched, due⟩))
  | start due bit idle => exact .inr (.inl ⟨rfl, rfl, idle, _, _, due, bit⟩)
  | input =>
    rw [supplyInput_eq]
    exact .inl ⟨rfl, rfl⟩
  | reset due => exact .inr (.inr (.inr ⟨rfl, rfl, _, due⟩))

/-- Settles O34, by cases on what the step did: no effect writes UROM, and only the host's input action writes IN. -/
theorem romIsFixedAndOnlyTheHostSetsInput : Obligations.RomIsFixedAndOnlyTheHostSetsInput := by
  intro s t hstep
  cases step_effect hstep with
  | idle | read | cells | start | reset => exact ⟨rfl, .inl rfl⟩
  | op _ _ _ frame => exact ⟨frame.urom, .inl frame.inp⟩
  | input due =>
    rw [supplyInput_eq]
    exact ⟨rfl, .inr ⟨_, _, _, due⟩⟩

/-- Settles O19: `step_sequencer`, and the sequencer's turn by what it fetches. -/
theorem stepRunsTheDecodedWord : Obligations.StepRunsTheDecodedWord := by
  intro s due
  rw [step_sequencer due]
  exact ⟨fun i busy fetched => sequencerTurn_ok busy fetched, fun e busy fetched => sequencerTurn_error busy fetched,
    fun idle => sequencerTurn_idle idle⟩

/-- Settles O20: `step_host`, the schedule's tail being the turns after this one. -/
theorem stepRunsTheHostAction : Obligations.StepRunsTheHostAction := by
  intro s a ts due
  rw [step_host due, State.popTurn, due, List.tail_cons]

/-- Settles O37: the host's reset action is `resetBlock`. -/
theorem resetMakesTheBlockIdle : Obligations.ResetMakesTheBlockIdle := by
  refine ⟨fun s ts due => ?_, rfl, rfl, rfl⟩
  refine ⟨resetBlock s.popTurn, step_host due, rfl, rfl, rfl, rfl, rfl, rfl, rfl, ?_, ?_⟩
  · exact congrArg List.tail due
  · rw [resetBlock, State.popTurn, due, List.tail_cons]

end Sys2Proof.Machine

/-! The fixed program under the invariant (44_finalize_squeeze.md section 5): it never faults, and only an absent input
byte stops it. -/

namespace Sys2Proof.Machine

/-- The input byte a run reads at an address, where it is readable. -/
def byteAt (s : State) (a : Nat) : Byte := (readByte s a).getD 0

theorem readByte_eq_byteAt {s : State} {a : Nat} (h : readByte s a ≠ none) : readByte s a = some (byteAt s a) := by
  obtain ⟨b, hb⟩ := Option.ne_none_iff_exists'.mp h
  rw [byteAt, hb, Option.getD_some]

/-- Either the n input bytes from an address on are all readable, or one of them is not. -/
theorem bytes_present_or_absent (s : State) (a n : Nat) :
    (∃ b : Nat → Byte, ∀ i, i < n → readByte s (a + i) = some (b i)) ∨ ∃ i, i < n ∧ readByte s (a + i) = none := by
  by_cases absent : ∃ i, i < n ∧ readByte s (a + i) = none
  · exact .inr absent
  · exact .inl ⟨fun i => byteAt s (a + i), fun i hi => readByte_eq_byteAt fun none => absent ⟨i, hi, none⟩⟩

/-- BLOCK completes unless one of its 16 input bytes is absent (R48, R103). -/
theorem exec_block_completes_or_stuck (s : State) :
    (∃ t, exec .block s = .next t) ∨
    (exec .block s = .refused .absentInput ∧ ∃ i, i < s.rem.toNat ∧ readByte s (s.cur.toNat + i) = none) := by
  rcases lt_or_ge s.rem.toNat 16 with short | full
  · exact .inl ⟨_, exec_block_exits short⟩
  · rcases bytes_present_or_absent s s.cur.toNat 16 with ⟨b, present⟩ | ⟨i, hi, absent⟩
    · obtain ⟨h1, h2⟩ := readWord_block_present present
      exact .inl ⟨_, exec_block_absorbs full h1 h2⟩
    · exact .inr ⟨exec_block_stuck full (readWord_block_absent ⟨i, hi, absent⟩), i, hi.trans_le full, absent⟩

/-- TAIL with REM < 16 completes unless one of its input bytes is absent (R48, R112). -/
theorem exec_tail_completes_or_stuck {s : State} (short : s.rem.toNat < 16) :
    (∃ t, exec .tail s = .next t) ∨
    (exec .tail s = .refused .absentInput ∧ ∃ i, i < s.rem.toNat ∧ readByte s (s.cur.toNat + i) = none) := by
  rcases bytes_present_or_absent s s.cur.toNat s.rem.toNat with ⟨b, present⟩ | absent
  · exact .inl ⟨_, exec_tail_adds short (absorbTail_present s b present tailMap s.h)⟩
  · exact .inr ⟨exec_tail_stuck short (absorbTail_tailMap_absent short absent), absent⟩

/-- Every micro-operation of the program completes where it stands, unless it reads an absent byte of the input left. -/
theorem RunPoint.exec_completes_or_stuck {s : State} (h : RunPoint s) {i : Instr}
    (fetched : romInstr s.upc.toNat = some i) (hi : i ≠ .start) :
    (∃ t, exec i s = .next t) ∨
    (exec i s = .refused .absentInput ∧ 1 ≤ s.upc.toNat ∧
      ∃ j, j < s.rem.toNat ∧ readByte s (s.cur.toNat + j) = none) := by
  cases i with
  | start => exact absurd rfl hi
  | block =>
    have upc := romInstr_block _ h.upc_le fetched
    exact (exec_block_completes_or_stuck s).imp_right fun ⟨stuck, absent⟩ => ⟨stuck, upc.ge, absent⟩
  | tail =>
    have upc := romInstr_tail _ h.upc_le fetched
    have short := h.rem_lt (by omega)
    exact (exec_tail_completes_or_stuck short).imp_right fun ⟨stuck, absent⟩ => ⟨stuck, by omega, absent⟩
  | init | mixa | mixb | sqz0 | sqz1 | sqz2 | sqz3 | chk0 | chk1 | chk2 | chk3 | done => exact .inl ⟨_, rfl⟩

/-- Under the invariant the sequencer's turn completes, or an input byte below LEN_L is absent (R131, R133, R116). -/
theorem SeqInv.sequencerTurn_completes_or_stuck {s : State} (h : SeqInv s) :
    (∃ t, sequencerTurn s = .next t) ∨
    (sequencerTurn s = .refused .absentInput ∧ ∃ a, a < s.lenL.toNat ∧ readByte s a = none) := by
  cases busy : s.busy with
  | false => exact .inl ⟨s, sequencerTurn_idle busy⟩
  | true =>
    have point := h.runPoint busy
    obtain ⟨i, hi⟩ := Option.isSome_iff_exists.mp (romInstr_isSome _ point.upc_le)
    have fetched := (decode_fetch_iff h.urom_eq i).mpr hi
    rw [sequencerTurn_ok busy fetched]
    refine (point.exec_completes_or_stuck hi (decodeUop_ne_start fetched)).imp_right ?_
    rintro ⟨stuck, one, j, hj, absent⟩
    obtain ⟨sum, -⟩ := point.cursor one
    exact ⟨stuck, s.cur.toNat + j, by omega, absent⟩

/-- A host write faults only as a START does (R31 to R38). -/
theorem hostWrite_fault {r : HostReg} {d : Word} {s : State} {f : Fault} (h : hostWrite r d s = .fault f) :
    r = .ctrl ∧ d.getLsbD 0 = true ∧ execStart s = .fault f := by
  cases r with
  | ctrl =>
    cases bit : d.getLsbD 0 with
    | true => exact ⟨rfl, rfl, (writeCtrl_start bit s).symm.trans h⟩
    | false => cases (writeCtrl_noStart bit s).symm.trans h
  | status | size | seed | length | first4 | out | reserved => cases h

/-- A register access faults only as the write of a START. -/
theorem hostAccess_fault {a : HostAccess} {s : State} {f : Fault} (h : hostAccess a s = .fault f) :
    ∃ d, a = .write 0x00 64 d ∧ d.getLsbD 0 = true ∧ execStart s = .fault f := by
  unfold hostAccess at h
  split at h
  case isFalse => cases h
  case isTrue wf =>
    cases a with
    | read => cases h
    | write off w d =>
      obtain ⟨ctrl, bit, start⟩ := hostWrite_fault h
      obtain ⟨rfl, -⟩ : w = 64 ∧ _ := (HostAccess.wf_iff _).mp wf
      exact ⟨d, regAt_ctrl ctrl ▸ rfl, bit, start⟩

/-- The host's actions raise one fault, and only by a START that finds BUSY = 0 and a parameter cell empty (R40). -/
theorem hostAct_fault {a : HostAction} {s : State} {f : Fault} (h : hostAct a s = .fault f) :
    f = .unwrittenParam ∧ s.busy = false ∧ (s.size = none ∨ s.seed = none ∨ s.length = none) ∧
    ∃ d, a = .access (.write 0x00 64 d) ∧ d.getLsbD 0 = true := by
  cases a with
  | setInput | reset => cases h
  | access a =>
    obtain ⟨d, rfl, bit, start⟩ := hostAccess_fault h
    obtain ⟨unwritten, idle, empty⟩ := execStart_fault start
    exact ⟨unwritten, idle, empty, d, rfl, bit⟩

/-- Settles O40: the sequencer's turn never faults (`SeqInv.sequencerTurn_completes_or_stuck`), and the host's by START
alone. -/
theorem fixedRomNeverFaults : Obligations.FixedRomNeverFaults := by
  intro s h
  rcases sequencerDue_or_host s with due | ⟨a, ts, due⟩
  · rw [step_sequencer due]
    rcases h.popTurn.sequencerTurn_completes_or_stuck with ⟨t, next⟩ | ⟨stuck, -⟩
    · simp [next]
    · simp [stuck]
  · rw [step_host due]
    refine ⟨fun hf => ?_, fun hf => ?_, fun hf => ?_⟩
    · cases (hostAct_fault hf).1
    · cases (hostAct_fault hf).1
    · obtain ⟨-, idle, empty, d, rfl, bit⟩ := hostAct_fault hf
      exact ⟨idle, empty, d, ts, due, bit⟩

/-- Settles O41, by `SeqInv.sequencerTurn_completes_or_stuck`. -/
theorem sequencerIsNeverStuckWithItsInput : Obligations.SequencerIsNeverStuckWithItsInput := by
  intro s h due readable
  rw [step_sequencer due]
  rcases h.popTurn.sequencerTurn_completes_or_stuck with next | ⟨-, a, ha, absent⟩
  · exact next
  · have present : (readByte s.popTurn a).isSome = true := readable a ha
    rw [absent] at present
    cases present

end Sys2Proof.Machine

/-! The host's register accesses (10_state.md sections 4 and 5): which are admitted, what a read returns and what it
leaves, and that no access disturbs a run. -/

namespace Sys2Proof.Machine

theorem execStart_busy {s : State} (busy : s.busy = true) : execStart s = .next s := if_pos busy

/-! No host access is refused but for R39. -/

theorem execStart_ne_refused (s : State) (r : Refusal) : execStart s ≠ .refused r := by
  intro h
  unfold execStart at h
  split at h
  · cases h
  · split at h <;> cases h

theorem hostWrite_ne_refused (r : HostReg) (d : Word) (s : State) (f : Refusal) : hostWrite r d s ≠ .refused f := by
  intro h
  cases r with
  | ctrl =>
    cases bit : d.getLsbD 0 with
    | true => exact execStart_ne_refused s f ((writeCtrl_start bit s).symm.trans h)
    | false => cases (writeCtrl_noStart bit s).symm.trans h
  | status | size | seed | length | first4 | out | reserved => cases h

theorem hostAccess_ne_refused {a : HostAccess} (wf : a.wf = true) (s : State) (f : Refusal) :
    hostAccess a s ≠ .refused f := by
  intro h
  unfold hostAccess at h
  rw [if_pos wf] at h
  cases a with
  | read => cases h
  | write off _ d => exact hostWrite_ne_refused (regAt off) d s f h

/-- Settles O28: R39's two conditions are `HostAccess.wf`, and an access is refused exactly without it. -/
theorem onlyAlignedFullWidthAccessesAreAdmitted : Obligations.OnlyAlignedFullWidthAccessesAreAdmitted := by
  intro s a
  have bad : (a.width ≠ 64 ∨ a.offset.toNat % 8 ≠ 0) ↔ ¬ a.wf = true := by
    rw [HostAccess.wf_iff, not_and_or]
  rw [bad]
  constructor
  · exact fun h => hostAccess_refused (Bool.not_eq_true _ ▸ h) s
  · exact fun refused wf => hostAccess_ne_refused wf s _ refused

/-- Settles O29: a read of the register at the offset is `hostRead`, whose frame is `hostRead_eq`. -/
theorem hostReadsHaveNoSideEffect : Obligations.HostReadsHaveNoSideEffect := by
  intro s off aligned
  exact ⟨_, hostAct_read aligned rfl s, hostRead_eq _ s⟩

/-- While BUSY = 1 a host write changes the three parameter cells at most: a START is ignored (R101). -/
theorem hostWrite_busy {s : State} (busy : s.busy = true) (r : HostReg) (d : Word) :
    ∃ z sd ln, hostWrite r d s = .next { s with size := z, seed := sd, length := ln } := by
  cases r with
  | ctrl =>
    cases bit : d.getLsbD 0 with
    | true => exact ⟨_, _, _, (writeCtrl_start bit s).trans (execStart_busy busy)⟩
    | false => exact ⟨_, _, _, writeCtrl_noStart bit s⟩
  | status | size | seed | length | first4 | out | reserved => exact ⟨_, _, _, rfl⟩

/-- Settles O30: neither a read (`hostRead_eq`) nor a write while BUSY = 1 (`hostWrite_busy`) touches the run. -/
theorem hostAccessesDoNotDisturbTheRun : Obligations.HostAccessesDoNotDisturbTheRun := by
  intro s a busy wf
  cases a with
  | read off w =>
    obtain ⟨rfl, aligned⟩ : w = 64 ∧ _ := (HostAccess.wf_iff _).mp wf
    refine ⟨_, hostAccess_read aligned s, ?_⟩
    rw [hostRead_eq]
    rfl
  | write off w d =>
    obtain ⟨rfl, aligned⟩ : w = 64 ∧ _ := (HostAccess.wf_iff _).mp wf
    obtain ⟨z, sd, ln, next⟩ := hostWrite_busy busy (regAt off) d
    exact ⟨_, (hostAccess_write aligned d s).trans next, rfl⟩

theorem readCell_none {c : Option Word} (h : c = none) (s : State) : readCell c s = drawRead s := by
  rw [h, readCell]

theorem readSize_none {s : State} (h : s.size = none) :
    readSize s = { s with
      readData := some (((Config.freeWord s.draws).setWidth 32).setWidth 64), draws := s.draws + 1 } := by
  simp only [readSize, h]

/-- Settles O24: each cell's read when it is empty. -/
theorem emptyParameterReadIsDrawn : Obligations.EmptyParameterReadIsDrawn := by
  intro s
  refine ⟨fun empty => ?seed, fun empty => ?length, fun empty => ?size⟩
  case seed => exact (hostAct_read rfl rfl s).trans (congrArg _ (readCell_none empty s))
  case length => exact (hostAct_read rfl rfl s).trans (congrArg _ (readCell_none empty s))
  case size => exact (hostAct_read rfl rfl s).trans (congrArg _ (readSize_none empty))

/-! What a read of an output register returns (R36, R37). -/

theorem outputReadable_iff (s : State) : outputReadable s = true ↔ s.busy = false ∧ s.done = true := by
  simp [outputReadable]

theorem readOutput_shown {s : State} (idle : s.busy = false) (done : s.done = true) (v : Word) :
    readOutput v s = s.setReadData v :=
  if_pos ((outputReadable_iff s).mpr ⟨idle, done⟩)

theorem readOutput_drawn {s : State} (h : s.busy = true ∨ s.done = false) (v : Word) :
    readOutput v s = drawRead s := by
  refine if_neg fun readable => ?_
  obtain ⟨idle, done⟩ := (outputReadable_iff s).mp readable
  simp [idle, done] at h

/-- Byte k of the eight that OUTj shows is output byte 8j + k (R37). -/
theorem outWord_bytes (o : Vector Byte 32) {j k : Nat} (hk : k < 8) (hjk : 8 * j + k < 32) :
    ((o.toList.drop (8 * j)).take 8)[k]? = some o[8 * j + k] := by
  rw [List.getElem?_take_of_lt hk, List.getElem?_drop, List.getElem?_eq_getElem (by simpa using hjk),
    Vector.getElem_toList]

/-- Byte k of OUTj is output byte 8j + k, the first being the least significant (R37, R45). -/
theorem outWord_extract (o : Vector Byte 32) {j k : Nat} (hk : k < 8) (hjk : 8 * j + k < 32) :
    (outWord o j).extractLsb' (8 * k) 8 = o[8 * j + k] := by
  rw [outWord, leWord_extract _ k hk, outWord_bytes o hk hjk, Option.getD_some]

/-- FIRST4 is output bytes 3 to 0, byte 0 the least significant (R86). -/
theorem first4_eq_append (o : Vector Byte 32) : first4 o = o[3] ++ o[2] ++ o[1] ++ o[0] := by
  have bytes (k : Nat) (hk : k < 4) : (o.toList.take 4)[k]? = some o[k] := by
    rw [List.getElem?_take_of_lt hk, List.getElem?_eq_getElem (by simp; omega), Vector.getElem_toList]
  apply BitVec.eq_of_getLsbD_eq
  intro i hi
  rw [first4, BitVec.getLsbD_setWidth, leWord_getLsbD _ _ (by omega), bytes _ (by omega)]
  simp only [BitVec.getLsbD_append, hi, decide_true, Bool.true_and, Option.getD_some]
  have byte (k : Nat) (hk : i / 8 = k) (hk4 : k < 4) : o[i / 8].getLsbD (i % 8) = o[k].getLsbD (i - 8 * k) := by
    subst hk
    congr 1
    omega
  simp only [Nat.sub_sub]
  split_ifs
  · exact byte 0 (by omega) (by decide)
  · exact byte 1 (by omega) (by decide)
  · exact byte 2 (by omega) (by decide)
  · exact byte 3 (by omega) (by decide)

/-! What an input action does to the stores (R47, R62; log entry 12). -/

/-- A change that races with the run: the byte is recorded with its draw. -/
theorem supplyInput_racing {s : State} {addr : Word} {v : Option Byte} (busy : s.busy = true)
    (below : addr.toNat < s.lenL.toNat) (changed : s.inp.read addr.toNat ≠ v) :
    supplyInput addr v s = { s with
      inp := s.inp.put addr.toNat v
      raced := s.raced.write addr.toNat (Config.freeByte s.draws)
      draws := s.draws + 1 } :=
  if_pos (by simp [busy, below, changed])

/-- Any other input action changes IN alone. -/
theorem supplyInput_quiet {s : State} {addr : Word} {v : Option Byte}
    (quiet : s.busy = false ∨ s.lenL.toNat ≤ addr.toNat ∨ s.inp.read addr.toNat = v) :
    supplyInput addr v s = { s with inp := s.inp.put addr.toNat v } := by
  refine if_neg ?_
  rcases quiet with idle | beyond | same
  · simp [idle]
  · simp [beyond]
  · simp [same]

/-- An input action leaves what a run reads at every other address. -/
theorem readByte_supplyInput_other {s : State} {addr : Word} {v : Option Byte} {a : Nat} (ha : a ≠ addr.toNat) :
    readByte (supplyInput addr v s) a = readByte s a := by
  have inp : (supplyInput addr v s).inp.read a = s.inp.read a := by
    rw [supplyInput_inp, Memory.read_put, if_neg ha]
  have raced : (supplyInput addr v s).raced.read a = s.raced.read a := by
    rcases supplyInput_raced addr v s with same | drawn
    · rw [same]
    · rw [drawn, Memory.read_write, if_neg ha]
  rw [readByte, readByte, inp, raced]

/-- Settles O31: the frame is `supplyInput_eq`, and the racing and quiet cases have a lemma each. -/
theorem inputChangesDuringARunAreDrawn : Obligations.InputChangesDuringARunAreDrawn := by
  intro s addr v
  refine ⟨supplyInput addr v s, rfl, supplyInput_eq addr v s, ?stored,
    fun a ha => ⟨?kept, readByte_supplyInput_other ha⟩, fun busy below changed => ?racing, fun quiet => ?quiet⟩
  case stored => rw [supplyInput_inp, Memory.read_put, if_pos rfl]
  case kept => rw [supplyInput_inp, Memory.read_put, if_neg ha]
  case racing =>
    rw [supplyInput_racing busy below changed, readByte, Memory.read_write, if_pos rfl]
    exact ⟨rfl, rfl⟩
  case quiet =>
    rw [supplyInput_quiet quiet]
    exact ⟨rfl, rfl⟩

/-! Where OUT0 to OUT3 and FIRST4 stand in the window (R30). -/

theorem regAt_out : ∀ row ∈ [(0x30#7, 0), (0x38#7, 1), (0x40#7, 2), (0x48#7, 3)],
    row.1.toNat % 8 = 0 ∧ ∃ j : Fin 4, regAt row.1 = .out j ∧ j.val = row.2 := by decide

theorem regAt_output : ∀ off ∈ [0x28#7, 0x30, 0x38, 0x40, 0x48],
    off.toNat % 8 = 0 ∧ (regAt off = .first4 ∨ ∃ j, regAt off = .out j) := by decide

/-- Settles O25: a shown register returns its view of OUT (`readOutput_shown`), any other read is drawn. -/
theorem outputRegistersShowTheDigest : Obligations.OutputRegistersShowTheDigest := by
  refine ⟨fun s idle done => ⟨?first4, ?out⟩, fun s off hoff => ?other⟩
  case first4 =>
    refine ⟨(first4 s.out).setWidth 64, ?_, by rw [first4_eq_append]⟩
    exact (hostAct_read rfl rfl s).trans (congrArg _ (readOutput_shown idle done _))
  case out =>
    intro off j hrow
    obtain ⟨aligned, i, hr, rfl⟩ := regAt_out _ hrow
    refine ⟨outWord s.out i.val, ?_, fun k hk hb => outWord_extract s.out hk hb⟩
    exact (hostAct_read aligned hr s).trans (congrArg _ (readOutput_shown idle done _))
  case other =>
    obtain ⟨aligned, hr | ⟨j, hr⟩⟩ := regAt_output off hoff
    all_goals exact ⟨fun d => hostAct_write aligned hr d s,
      fun h => (hostAct_read aligned hr s).trans (congrArg _ (readOutput_drawn h _))⟩

/-! Noninterference of the host's reads (R43): a read is determined by what the host may see. -/

theorem readCell_readData (c : Option Word) {s s' : State} (draws : s.draws = s'.draws) :
    (readCell c s).readData = (readCell c s').readData ∧ (readCell c s).readData.isSome = true := by
  cases c with
  | some v => exact ⟨rfl, rfl⟩
  | none => exact ⟨congrArg (some <| Config.freeWord ·) draws, rfl⟩

theorem readSize_readData {s s' : State} (size : s.size = s'.size) (draws : s.draws = s'.draws) :
    (readSize s).readData = (readSize s').readData ∧ (readSize s).readData.isSome = true := by
  simp only [readSize, size, draws]
  cases s'.size with
  | some v => exact ⟨rfl, rfl⟩
  | none => exact ⟨rfl, rfl⟩

theorem readOutput_readData {v v' : Word} {s s' : State} (busy : s.busy = s'.busy) (done : s.done = s'.done)
    (draws : s.draws = s'.draws) (shown : s.busy = false → s.done = true → v = v') :
    (readOutput v s).readData = (readOutput v' s').readData ∧ (readOutput v s).readData.isSome = true := by
  have same : outputReadable s' = outputReadable s := by rw [outputReadable, outputReadable, busy, done]
  unfold readOutput
  rw [same]
  split
  case isTrue readable =>
    obtain ⟨idle, ended⟩ := (outputReadable_iff s).mp readable
    exact ⟨congrArg some (shown idle ended), rfl⟩
  case isFalse => exact ⟨congrArg (some <| Config.freeWord ·) draws, rfl⟩

/-- Settles O26, register by register. -/
theorem hostReadsSeeNoHiddenState : Obligations.HostReadsSeeNoHiddenState := by
  intro s s' off aligned busy done size seed length draws out
  refine ⟨_, _, hostAct_read aligned rfl s, hostAct_read aligned rfl s', ?_⟩
  cases regAt off with
  | ctrl => exact ⟨rfl, rfl⟩
  | status => exact ⟨by simp only [hostRead, statusWord, busy, done, State.setReadData_readData], rfl⟩
  | size => exact readSize_readData size draws
  | seed => rw [hostRead, hostRead, ← seed]; exact readCell_readData s.seed draws
  | length => rw [hostRead, hostRead, ← length]; exact readCell_readData s.length draws
  | first4 => exact readOutput_readData busy done draws fun idle ended => by rw [out idle ended]
  | out j => exact readOutput_readData busy done draws fun idle ended => by rw [out idle ended]
  | reserved => exact ⟨congrArg (some <| Config.freeWord ·) draws, rfl⟩

end Sys2Proof.Machine

/-! The coding, backwards (30_encoding.md section 2). -/

namespace Sys2Proof.Laws

/-- Settles O2: each sample word by evaluating the decoder. -/
theorem sampleWordsDecode : Obligations.SampleWordsDecode :=
  ⟨rfl, rfl, rfl, rfl, rfl, rfl, rfl, rfl, rfl, rfl⟩

theorem decodeCtrl_ok {d : Word} {i : Instr} (h : decodeCtrl d = .ok i) : d.getLsbD 0 = true ∧ i = .start := by
  unfold decodeCtrl at h
  split at h
  case isTrue bit => exact ⟨bit, (Except.ok.inj h).symm⟩
  case isFalse => cases h

/-- Settles O3: a ROM word by `encode_of_decodeUop`, and CTRL data by its bit 0. -/
theorem decodedWordEncodesBack : Obligations.DecodedWordEncodesBack := by
  intro c i h
  cases c with
  | uop w =>
    have ne_start := Machine.decodeUop_ne_start h
    exact ⟨fun _ => encode_of_decodeUop h, fun hi => absurd hi ne_start, fun ⟨_, hc, _⟩ => Code.noConfusion hc⟩
  | ctrl d =>
    obtain ⟨bit, rfl⟩ := decodeCtrl_ok h
    exact ⟨fun ne => absurd rfl ne, fun _ => ⟨d, rfl, bit⟩, fun _ => rfl⟩

end Sys2Proof.Laws

/-! The datapath (00_scope.md section 4, 41_mixing.md section 4): rotation bit by bit, and the primitives as
permutations. -/

namespace Sys2Proof.Machine

/-- Settles O4: the bits below 64 - n come from the right shift, the others from the left shift. -/
theorem rotationMovesEveryBit : Obligations.RotationMovesEveryBit := by
  intro x n i hn1 hn63 hi
  rw [rotr64, BitVec.getLsbD_or, BitVec.getLsbD_ushiftRight, BitVec.getLsbD_shiftLeft]
  by_cases low : i + n < 64
  · have shifted : i < 64 - n := by omega
    simp [Nat.mod_eq_of_lt low, Nat.add_comm n i, shifted]
  · have beyond : x.getLsbD (n + i) = false := BitVec.getLsbD_of_ge x _ (by omega)
    have wrapped : (i + n) % 64 = i - (64 - n) := by omega
    have shifted : ¬ i < 64 - n := by omega
    simp [beyond, wrapped, shifted, hi]

/-- A rotation loses no bit. -/
theorem rotr64_injective {n : Nat} (h1 : 1 ≤ n) (h63 : n ≤ 63) : Function.Injective (rotr64 · n) := by
  intro x y (h : rotr64 x n = rotr64 y n)
  apply BitVec.eq_of_getLsbD_eq
  intro i hi
  have source : ((i + (64 - n)) % 64 + n) % 64 = i := by omega
  have bit (z : Word) : (rotr64 z n).getLsbD ((i + (64 - n)) % 64) = z.getLsbD i := by
    rw [rotationMovesEveryBit z n _ h1 h63 (Nat.mod_lt _ (by decide)), source]
  rw [← bit x, ← bit y, h]

/-- Multiplying by an odd word is injective: an odd number is coprime to 2^64. -/
theorem mul_odd_injective {m : Word} (odd : m.getLsbD 0 = true) : Function.Injective (· * m) := by
  intro x y (h : x * m = y * m)
  have coprime : Nat.Coprime (2 ^ 64) m.toNat := by
    rw [BitVec.getLsbD, Nat.testBit_zero, decide_eq_true_iff, ← Nat.odd_iff] at odd
    exact odd.coprime_two_left.pow_left 64
  have modEq : x.toNat * m.toNat ≡ y.toNat * m.toNat [MOD 2 ^ 64] := by
    have toNat := congrArg BitVec.toNat h
    rwa [BitVec.toNat_mul, BitVec.toNat_mul] at toNat
  exact BitVec.eq_of_toNat_eq (Nat.ModEq.eq_of_lt_of_lt (modEq.cancel_right_of_coprime coprime) x.isLt y.isLt)

/-- mrm with odd multipliers is injective (R13, R95). -/
theorem mrm_injective {m1 m2 : Word} {r : Nat} (odd1 : m1.getLsbD 0 = true) (odd2 : m2.getLsbD 0 = true) (h1 : 1 ≤ r)
    (h63 : r ≤ 63) : Function.Injective (mrm · m1 r m2) :=
  (mul_odd_injective odd2).comp ((rotr64_injective h1 h63).comp (mul_odd_injective odd1))

theorem Lanes.finite : Finite Lanes :=
  Finite.of_injective (fun h : Lanes => (h.h0, h.h1, h.h2, h.h3)) fun ⟨_, _, _, _⟩ ⟨_, _, _, _⟩ h => by simpa using h

/-- Primitive A: lanes 0 and 2 come back from their own new values, and with those lanes 1 and 3. -/
theorem mixA_injective {k : MixConst} (odd : k.Odd) : Function.Injective (mixA k) := by
  obtain ⟨P, Q, R, S, T, U, V, W⟩ := odd
  intro g h same
  obtain ⟨a, b, c, d⟩ := Lanes.mk.inj same
  have h1 := mrm_injective S R (by decide) (by decide) b
  have h3 := mrm_injective W V (by decide) (by decide) d
  rw [a, BitVec.xor_left_inj] at h1
  rw [c, BitVec.xor_left_inj] at h3
  have h0 := mrm_injective Q P (by decide) (by decide) a
  have h2 := mrm_injective U T (by decide) (by decide) c
  cases g; cases h
  exact Lanes.mk.injEq .. ▸ ⟨h0, h1, h2, h3⟩

/-- Primitive B: lane 1 comes back from its own new value, and with it lane 2. -/
theorem mixB_injective {k : MixConst} (seed : Word) (odd : k.Odd) : Function.Injective (mixB k seed) := by
  obtain ⟨-, -, R, S, -, -, V, W⟩ := odd
  intro g h same
  obtain ⟨h0, a, b, h3⟩ := Lanes.mk.inj same
  have h2 := mrm_injective R S (by decide) (by decide) b
  rw [a, BitVec.xor_left_inj] at h2
  have h1 := mrm_injective V W (by decide) (by decide) a
  cases g; cases h
  exact Lanes.mk.injEq .. ▸ ⟨h0, h1, h2, h3⟩

theorem mixConst_odd : Config.mixConst.Odd :=
  ⟨Config.oddWord_odd _, Config.oddWord_odd _, Config.oddWord_odd _, Config.oddWord_odd _,
    Config.oddWord_odd _, Config.oddWord_odd _, Config.oddWord_odd _, Config.oddWord_odd _⟩

/-- Settles O5: the primitives are injective, and the four-word states are finitely many. -/
theorem primitivesArePermutations : Obligations.PrimitivesArePermutations := by
  have := Lanes.finite
  exact ⟨fun k odd => Finite.injective_iff_bijective.mp (mixA_injective odd),
    fun k seed odd => Finite.injective_iff_bijective.mp (mixB_injective seed odd), mixConst_odd⟩

end Sys2Proof.Machine

/-! OutWrite and READ64 (40_normalizer.md), and the order of TAILMAP's rows (43_tail.md). -/

namespace Sys2Proof.Machine

/-- Settles O6: bit i of OUTj is bit i mod 8 of the byte that OutWrite put at 8j + i / 8, which is bit i of v. -/
theorem outWriteAndReadAreInverse : Obligations.OutWriteAndReadAreInverse := by
  refine ⟨fun o j v hj => ?read, fun bs k hk hlen => ?bytes⟩
  case read =>
    apply BitVec.eq_of_getLsbD_eq
    intro i hi
    have slot : 8 * j ≤ 8 * j + i / 8 ∧ 8 * j + i / 8 < 8 * j + 8 := by omega
    have offset : 8 * (8 * j + i / 8 - 8 * j) + i % 8 = i := by omega
    rw [outWord, leWord_getLsbD _ i hi, outWord_bytes _ (by omega) (by omega), Option.getD_some, outWrite_getElem,
      if_pos slot, byteOf, BitVec.getLsbD_extractLsb', offset]
    simp [Nat.mod_lt]
  case bytes => rw [byteOf, leWord_extract bs k (hlen ▸ hk), List.getElem?_eq_getElem hk, Option.getD_some]

/-- What one row of TAILMAP does to the lanes: nothing at or above REM; none if its byte is absent (R112, R48). -/
def absorbRow (s : State) (e : TailEntry) (h : Lanes) : Option Lanes :=
  if e.index < s.rem.toNat then
    (readByte s (s.cur.toNat + e.index)).map fun b => h.add e.lane (e.value b)
  else some h

theorem absorbTail_cons (s : State) (e : TailEntry) (es : List TailEntry) (h : Lanes) :
    absorbTail s (e :: es) h = (absorbRow s e h).bind (absorbTail s es) := by
  rw [absorbTail, absorbRow]
  split
  · cases readByte s (s.cur.toNat + e.index) <;> rfl
  · rfl

/-- Two rows commute: the additions do (`Lanes.add_comm`), and an absent byte of either stops both orders. -/
theorem absorbRow_comm (s : State) (e e' : TailEntry) (h : Lanes) :
    (absorbRow s e h).bind (absorbRow s e') = (absorbRow s e' h).bind (absorbRow s e) := by
  unfold absorbRow
  by_cases he : e.index < s.rem.toNat <;> by_cases he' : e'.index < s.rem.toNat
  · cases readByte s (s.cur.toNat + e.index) <;> cases readByte s (s.cur.toNat + e'.index) <;>
      simp [he, he', Lanes.add_comm]
  all_goals simp [he, he']

/-- Rows absorbed in either of two orders give the same (R114). -/
theorem absorbTail_perm (s : State) {es es' : List TailEntry} (perm : es.Perm es') :
    ∀ h, absorbTail s es h = absorbTail s es' h := by
  induction perm with
  | nil => exact fun _ => rfl
  | cons e _ ih => exact fun h => by rw [absorbTail_cons, absorbTail_cons, funext ih]
  | swap e e' es =>
    intro h
    simp only [absorbTail_cons, ← Option.bind_assoc, absorbRow_comm s e e']
  | trans _ _ ih ih' => exact fun h => (ih h).trans (ih' h)

/-- Settles O13, by `absorbTail_perm`. -/
theorem tailOrderDoesNotMatter : Obligations.TailOrderDoesNotMatter :=
  fun s h _ perm => absorbTail_perm s perm h

end Sys2Proof.Machine

/-! What single operations do and do not read (10_state.md section 3): the fixed CHKs, START, PH, and the host's
cells. -/

namespace Sys2Proof.Machine

/-- Settles O16, from O15's equation: no class is below 0, and the classes START latches are below 3. -/
theorem checkZeroAndThreeAreFixed : Obligations.CheckZeroAndThreeAreFixed := by
  intro s
  refine ⟨?_, fun hscls => ?_⟩
  · rw [checkJumpsBelowItsThreshold s .chk0 0 (by decide), if_neg (Nat.not_lt_zero _)]
  · rw [checkJumpsBelowItsThreshold s .chk3 3 (by decide), if_pos (Nat.lt_succ_of_le hscls)]

theorem execStart_unwritten {s : State} (idle : s.busy = false)
    (empty : s.size = none ∨ s.seed = none ∨ s.length = none) : execStart s = .fault .unwrittenParam := by
  unfold execStart
  rw [if_neg (by simp [idle])]
  split
  case h_1 size seed length => simp [size, seed, length] at empty
  case h_2 => rfl

/-- Settles O18: START's three cases. -/
theorem startLatchesTheParameters : Obligations.StartLatchesTheParameters := by
  intro s
  exact ⟨execStart_busy, execStart_unwritten, fun z sd ln => execStart_accept⟩

/-- TAIL under a change f of the state that it cannot see. -/
theorem execTail_mapNext {f : State → State} {s : State} (rem : (f s).rem = s.rem)
    (absorbed : absorbTail (f s) tailMap (f s).h = absorbTail s tailMap s.h)
    (written : ∀ l, ((f s).setLanes l).advance = f (s.setLanes l).advance) :
    execTail (f s) = mapNext f (execTail s) := by
  unfold execTail
  rw [rem, absorbed]
  split
  · rfl
  · cases absorbTail s tailMap s.h with
    | some l => exact congrArg _ (written l)
    | none => rfl

/-- BLOCK under a change f of the state that it cannot see. -/
theorem execBlock_mapNext {f : State → State} {s : State} (rem : (f s).rem = s.rem)
    (read : ∀ a, readWord (f s) a = readWord s a) (cur : (f s).cur = s.cur) (exit : (f s).advance = f s.advance)
    (absorbed : ∀ g1 g2, absorbBlock g1 g2 (f s) = f (absorbBlock g1 g2 s)) :
    execBlock (f s) = mapNext f (execBlock s) := by
  unfold execBlock
  rw [rem, cur, read, read]
  split
  · cases readWord s s.cur.toNat <;> cases readWord s (s.cur.toNat + 8)
    case some.some g1 g2 => exact congrArg _ (absorbed g1 g2)
    all_goals rfl
  · exact congrArg _ exit

/-- START under a change f of the state that it cannot see. -/
theorem execStart_mapNext {f : State → State} {s : State} (busy : (f s).busy = s.busy) (size : (f s).size = s.size)
    (seed : (f s).seed = s.seed) (length : (f s).length = s.length)
    (accepted : ∀ z sd ln, acceptStart z sd ln (f s) = f (acceptStart z sd ln s)) :
    execStart (f s) = mapNext f (execStart s) := by
  unfold execStart
  rw [busy, size, seed, length]
  split
  · rfl
  · cases s.size <;> cases s.seed <;> cases s.length
    case some.some.some z sd ln => exact congrArg _ (accepted z sd ln)
    all_goals rfl

/-- CHK under a change f of the state that keeps SCLS and commutes with setting UPC. -/
theorem checkClass_mapNext {f : State → State} {s : State} (c : BitVec 2) (scls : (f s).scls = s.scls)
    (advance : (f s).advance = f s.advance) (jump : (f s).jumpDone = f s.jumpDone) :
    checkClass c (f s) = mapNext f (checkClass c s) := by
  unfold checkClass
  rw [scls]
  split
  · exact congrArg _ jump
  · exact congrArg _ advance

/-- SQZ under a change f of the state that it cannot see. -/
theorem squeeze_mapNext {f : State → State} {s : State} (j : BitVec 2) (h : (f s).h = s.h) (out : (f s).out = s.out)
    (written : ∀ o, ((f s).setOut o).advance = f (s.setOut o).advance) :
    squeeze j (f s) = mapNext f (squeeze j s) := by
  unfold squeeze
  rw [h, out]
  exact congrArg _ (written _)

/-- The state with PH set to p. -/
def State.withPhase (p : Bool) (s : State) : State := { s with ph := p }

/-- The state with other contents in SIZE, SEED and LENGTH. -/
def State.withCells (z : Option Half) (sd ln : Option Word) (s : State) : State :=
  { s with size := z, seed := sd, length := ln }

/-- Settles O35: PH is among the fields the other operations neither read nor write. -/
theorem phaseBelongsToInitAndBlock : Obligations.PhaseBelongsToInitAndBlock := by
  intro i s p ne_init ne_block
  change exec i (s.withPhase p) = mapNext (State.withPhase p) (exec i s)
  have read (a : Nat) : readByte (s.withPhase p) a = readByte s a := readByte_congr rfl rfl a
  cases i with
  | init => exact absurd rfl ne_init
  | block => exact absurd rfl ne_block
  | mixa | mixb | done => rfl
  | tail => exact execTail_mapNext rfl (absorbTail_congr read rfl rfl tailMap s.h) fun _ => rfl
  | sqz0 | sqz1 | sqz2 | sqz3 => exact squeeze_mapNext _ rfl rfl fun _ => rfl
  | chk0 | chk1 | chk2 | chk3 => exact checkClass_mapNext _ rfl rfl rfl
  | start => exact execStart_mapNext rfl rfl rfl rfl fun _ _ _ => rfl

/-- Settles O36: the parameter cells are among the fields the operations of a run neither read nor write. -/
theorem operationsNeverReadTheHostCells : Obligations.OperationsNeverReadTheHostCells := by
  intro i s z sd ln ne_start
  change exec i (s.withCells z sd ln) = mapNext (State.withCells z sd ln) (exec i s)
  have read (a : Nat) : readByte (s.withCells z sd ln) a = readByte s a := readByte_congr rfl rfl a
  cases i with
  | start => exact absurd rfl ne_start
  | init | mixa | mixb | done => rfl
  | block =>
    exact execBlock_mapNext rfl (fun a => congrArg (Option.map leWord) (readBytes_congr read a 8)) rfl rfl
      fun _ _ => rfl
  | tail => exact execTail_mapNext rfl (absorbTail_congr read rfl rfl tailMap s.h) fun _ => rfl
  | sqz0 | sqz1 | sqz2 | sqz3 => exact squeeze_mapNext _ rfl rfl fun _ => rfl
  | chk0 | chk1 | chk2 | chk3 => exact checkClass_mapNext _ rfl rfl rfl

end Sys2Proof.Machine

/-! The function rainbow (44_finalize_squeeze.md section 4): its output bytes slot by slot, for each size. -/

namespace Sys2Proof.Machine

/-- The state words before the first squeeze, after steps 1 to 6 of R136. -/
def rainbowLanes (k : MixConst) (input : List Byte) (seed : Word) : Lanes :=
  let n := input.length
  let (h, cur, rem) := rainbowBlocks k seed input n 0 n false (initLanes seed (BitVec.ofNat 64 n))
  rainbowCore k seed (rainbowTail input cur rem (mixB k seed h))

/-- The output after the squeeze into slot 0, from the state words before it. -/
def out64 (l : Lanes) : Vector Byte 32 := outWrite zeroOut 0 (squeezeWord l)

/-- The output after the squeeze into slot 1. -/
def out128 (k : MixConst) (l : Lanes) : Vector Byte 32 := outWrite (out64 l) 8 (squeezeWord (mixA k l))

/-- The output after the squeezes into slots 2 and 3. -/
def out256 (k : MixConst) (seed : Word) (l : Lanes) : Vector Byte 32 :=
  let l2 := rainbowCore k seed (mixA k l)
  outWrite (outWrite (out128 k l) 16 (squeezeWord l2)) 24 (squeezeWord (mixA k l2))

/-- The output of each size, from the state words before the first squeeze (steps 7 to 10 of R136). -/
def outOfSize (k : MixConst) (seed : Word) (size : Half) (l : Lanes) : Vector Byte 32 :=
  if size = 128 then out128 k l else if size = 256 then out256 k seed l else out64 l

/-- rainbow is the output of its size, and first4 of that. -/
theorem rainbow_eq (k : MixConst) (size : Half) (input : List Byte) (seed : Word) :
    rainbow k size input seed =
      ⟨outOfSize k seed size (rainbowLanes k input seed),
        first4 (outOfSize k seed size (rainbowLanes k input seed))⟩ := rfl

/-- OutWrite leaves the bytes below its offset. -/
theorem outWrite_below {o : Vector Byte 32} {off i : Nat} (hi : i < 32) (h : i < off) (v : Word) :
    (outWrite o off v)[i] = o[i] := by
  rw [outWrite_getElem, if_neg (by omega)]

/-- OutWrite leaves the bytes past the eight it writes. -/
theorem outWrite_above {o : Vector Byte 32} {off i : Nat} (hi : i < 32) (h : off + 8 ≤ i) (v : Word) :
    (outWrite o off v)[i] = o[i] := by
  rw [outWrite_getElem, if_neg (by omega)]

theorem out128_below (k : MixConst) (l : Lanes) {i : Nat} (hi : i < 32) (h : i < 8) : (out128 k l)[i] = (out64 l)[i] :=
  outWrite_below hi h _

theorem out256_below (k : MixConst) (seed : Word) (l : Lanes) {i : Nat} (hi : i < 32) (h : i < 16) :
    (out256 k seed l)[i] = (out128 k l)[i] :=
  (outWrite_below hi (by omega) _).trans (outWrite_below hi h _)

theorem out64_above (l : Lanes) {i : Nat} (hi : i < 32) (h : 8 ≤ i) : (out64 l)[i] = 0 :=
  (outWrite_above hi h _).trans (zeroOut_getElem i hi)

theorem out128_above (k : MixConst) (l : Lanes) {i : Nat} (hi : i < 32) (h : 16 ≤ i) : (out128 k l)[i] = 0 :=
  (outWrite_above hi h _).trans (out64_above l hi (by omega))

/-- The first 8 output bytes are those of slot 0 at every size (R128). -/
theorem outOfSize_below (k : MixConst) (seed : Word) (size : Half) (l : Lanes) {i : Nat} (hi : i < 32) (h : i < 8) :
    (outOfSize k seed size l)[i] = (out64 l)[i] := by
  unfold outOfSize
  split_ifs
  · exact out128_below k l hi h
  · exact (out256_below k seed l hi (by omega)).trans (out128_below k l hi h)
  · rfl

/-- A size other than 128 and 256 squeezes slot 0 alone (R127). -/
theorem rainbow_other {size : Half} (h128 : size ≠ 128) (h256 : size ≠ 256) (k : MixConst) (input : List Byte)
    (seed : Word) : rainbow k size input seed =
      ⟨out64 (rainbowLanes k input seed), first4 (out64 (rainbowLanes k input seed))⟩ := by
  rw [rainbow_eq, outOfSize, if_neg h128, if_neg h256]

/-- Settles O44: the later squeezes write bytes from 8 on, and those of size 256 alone from 16 on. -/
theorem shorterDigestIsAPrefix : Obligations.ShorterDigestIsAPrefix := by
  intro k input seed
  refine ⟨fun size size' i hi h8 => ?_, fun i hi h16 => ?_⟩
  · rw [rainbow_eq, rainbow_eq, outOfSize_below k seed size _ hi h8, outOfSize_below k seed size' _ hi h8]
  · exact (out256_below k seed _ hi h16).symm

/-- Settles O45: a size other than 128 and 256 squeezes slot 0 alone, size 128 slots 0 and 1, into a zero buffer. -/
theorem bytesBeyondTheDigestAreZero : Obligations.BytesBeyondTheDigestAreZero := by
  intro k size input seed
  refine ⟨fun h128 h256 => ⟨?same, fun i hi h8 => ?zero⟩, fun i hi h16 => out128_above k _ hi h16⟩
  case same => rw [rainbow_other h128 h256, rainbow_other (size := 64) (by decide) (by decide)]
  case zero =>
    rw [rainbow_other h128 h256]
    exact out64_above _ hi h8

end Sys2Proof.Machine

/-! The block loop (42_driver_blocks.md section 3): a run of BLOCK absorbs block after block. -/

namespace Sys2Proof.Machine

/-- The sequencer is running the fixed ROM, and no host action is due. -/
structure Running (s : State) : Prop where
  urom     : s.urom = uromImage
  busy     : s.busy = true
  schedule : s.schedule = []

/-- While running, a step is the operation that the program holds at UPC. -/
theorem Running.step_eq {s : State} (hs : Running s) {i : Instr} (hi : romInstr s.upc.toNat = some i) :
    step s = exec i s := by
  rw [step, takeTurn_nil hs.schedule]
  exact sequencerTurn_ok hs.busy ((decode_fetch_iff hs.urom i).mpr hi)

theorem run_succ {s t : State} (h : step s = .next t) (n : Nat) : core.run (n + 1) s = core.run n t :=
  Nat.add_comm n 1 ▸ run_append (run_one h)

theorem Running.run_eq {s t : State} (hs : Running s) {i : Instr} (hi : romInstr s.upc.toNat = some i)
    (h : exec i s = .next t) (n : Nat) : core.run (n + 1) s = core.run n t :=
  run_succ ((hs.step_eq hi).trans h) n

/-- The input word at an address, from the bytes b (R80). -/
def inputWord (b : Nat → Byte) (a : Nat) : Word := leWord ((List.range 8).map fun i => b (a + i))

/-- The state after the block at CUR, of the input bytes b (R103). -/
def absorbNext (b : Nat → Byte) (s : State) : State :=
  absorbBlock (inputWord b s.cur.toNat) (inputWord b (s.cur.toNat + 8)) s

/-- The state after k blocks of the input bytes b. -/
def absorbBlocks (b : Nat → Byte) : Nat → State → State
  | 0, s => s
  | k + 1, s => absorbBlocks b k (absorbNext b s)

/-- Absorbing blocks writes H, PH, CUR and REM only. -/
theorem absorbBlocks_eq (b : Nat → Byte) (k : Nat) (s : State) :
    absorbBlocks b k s = { s with
      h := (absorbBlocks b k s).h
      ph := (absorbBlocks b k s).ph
      cur := (absorbBlocks b k s).cur
      rem := (absorbBlocks b k s).rem } := by
  induction k generalizing s with
  | zero => rfl
  | succ k ih =>
    rw [absorbBlocks, ih]
    rfl

/-- CUR and REM after k blocks, PH inverted k times (R103, R105). -/
theorem absorbBlocks_cursor (b : Nat → Byte) {k : Nat} {s : State} (full : 16 * k ≤ s.rem.toNat)
    (fits : s.cur.toNat + 16 * k < 2 ^ 64) :
    (absorbBlocks b k s).cur.toNat = s.cur.toNat + 16 * k ∧ (absorbBlocks b k s).rem.toNat = s.rem.toNat - 16 * k ∧
    (absorbBlocks b k s).ph = (s.ph ^^ decide (k % 2 = 1)) := by
  induction k generalizing s with
  | zero => simp [absorbBlocks]
  | succ k ih =>
    have cur : (absorbNext b s).cur.toNat = s.cur.toNat + 16 := toNat_absorbBlock_cur _ _ (by omega)
    have rem : (absorbNext b s).rem.toNat = s.rem.toNat - 16 := toNat_absorbBlock_rem _ _ (by omega)
    obtain ⟨hcur, hrem, hph⟩ := ih (s := absorbNext b s) (by omega) (by omega)
    refine ⟨?_, ?_, ?_⟩
    · rw [absorbBlocks, hcur, cur]
      omega
    · rw [absorbBlocks, hrem, rem]
      omega
    · have parity : decide ((k + 1) % 2 = 1) = !decide (k % 2 = 1) := by
        rw [← decide_not, decide_eq_decide]
        omega
      rw [absorbBlocks, hph, parity]
      exact Bool.not_xor .. |>.trans (Bool.xor_not ..).symm

theorem Running.absorbNext {s : State} (hs : Running s) (b : Nat → Byte) : Running (absorbNext b s) := { hs with }

/-- A step of BLOCK with its 16 bytes readable absorbs them. -/
theorem Running.step_block {s : State} (hs : Running s) (hu : s.upc = 1) {b : Nat → Byte} (full : 16 ≤ s.rem.toNat)
    (present : ∀ i, i < 16 → readByte s (s.cur.toNat + i) = some (b (s.cur.toNat + i))) :
    step s = .next (Machine.absorbNext b s) := by
  have h1 : readWord s s.cur.toNat = some (inputWord b s.cur.toNat) :=
    readWord_present s _ _ fun i hi => present i (by omega)
  have h2 : readWord s (s.cur.toNat + 8) = some (inputWord b (s.cur.toNat + 8)) :=
    readWord_present s _ _ fun i hi => Nat.add_assoc _ 8 i ▸ present (8 + i) (by omega)
  rw [hs.step_eq (i := .block) (hu ▸ rfl)]
  exact exec_block_absorbs full h1 h2

/-- k steps at BLOCK's address absorb k blocks, when their bytes are readable (R104). -/
theorem run_blocks (b : Nat → Byte) {k : Nat} {s : State} (hs : Running s) (hu : s.upc = 1)
    (full : 16 * k ≤ s.rem.toNat) (fits : s.cur.toNat + 16 * k < 2 ^ 64)
    (present : ∀ i, i < 16 * k → readByte s (s.cur.toNat + i) = some (b (s.cur.toNat + i))) :
    core.run k s = .next (absorbBlocks b k s) := by
  induction k generalizing s with
  | zero => rfl
  | succ k ih =>
    have step := hs.step_block hu (b := b) (by omega) fun i hi => present i (by omega)
    have cur : (absorbNext b s).cur.toNat = s.cur.toNat + 16 := toNat_absorbBlock_cur _ _ (by omega)
    have rem : (absorbNext b s).rem.toNat = s.rem.toNat - 16 := toNat_absorbBlock_rem _ _ (by omega)
    rw [run_succ step, absorbBlocks]
    refine ih (hs.absorbNext b) hu (by omega) (by omega) fun i hi => ?_
    rw [cur, Nat.add_assoc]
    exact present (16 + i) (by omega)

/-- The loop with 16k + r bytes left: k steps absorb, and one more leaves it (R104, R105). -/
theorem run_loop (b : Nat → Byte) {k : Nat} {s : State} (hs : Running s) (hu : s.upc = 1)
    (full : 16 * k ≤ s.rem.toNat) (short : s.rem.toNat - 16 * k < 16) (fits : s.cur.toNat + 16 * k < 2 ^ 64)
    (present : ∀ i, i < 16 * k → readByte s (s.cur.toNat + i) = some (b (s.cur.toNat + i))) :
    core.run (k + 1) s = .next (absorbBlocks b k s).advance := by
  have frame := absorbBlocks_eq b k s
  have running : Running (absorbBlocks b k s) := by rw [frame]; exact { hs with }
  have upc : (absorbBlocks b k s).upc = 1 := by rw [frame]; exact hu
  obtain ⟨-, rem, -⟩ := absorbBlocks_cursor b full fits
  have exit : step (absorbBlocks b k s) = .next (absorbBlocks b k s).advance :=
    (running.step_eq (i := .block) (upc ▸ rfl)).trans (exec_block_exits (rem ▸ short))
  rw [run_append (run_blocks b hs hu full fits present)]
  exact run_one exit

/-- Settles O42: the loop by `run_loop`, CUR, REM and PH by `absorbBlocks_cursor`. -/
theorem blockLoopRunsOncePerBlock : Obligations.BlockLoopRunsOncePerBlock := by
  intro s k r urom busy schedule upc hr rem fits readable
  have present (i : Nat) (hi : i < 16 * k) : readByte s (s.cur.toNat + i) = some (byteAt s (s.cur.toNat + i)) :=
    readByte_eq_byteAt (Option.isSome_iff_ne_none.mp (readable i hi))
  have full : 16 * k ≤ s.rem.toNat := by omega
  obtain ⟨hcur, hrem, hph⟩ := absorbBlocks_cursor (byteAt s) full fits
  have run := run_loop (byteAt s) ⟨urom, busy, schedule⟩ upc full (by omega) fits present
  have frame := absorbBlocks_eq (byteAt s) k s
  refine ⟨_, run, ?_, by rw [State.advance_rem]; omega, hcur, hph, ?_, ?_⟩
  · rw [State.advance_upc, frame, upc]
    rfl
  · rw [State.advance_out, frame]
  · rw [State.advance_busy, frame, busy]

end Sys2Proof.Machine

/-! A whole run (44_finalize_squeeze.md sections 5 and 6): the machine's block loop, tail and finalization compute the
parts of the function rainbow. -/

namespace Sys2Proof.Machine

/-- The input as bytes by address, 0 past its end. -/
def inputByte (input : List Byte) (a : Nat) : Byte := input.getD a 0

/-- The machine's input words are those of R136, within the input. -/
theorem inputWord_eq {input : List Byte} {a : Nat} (h : a + 8 ≤ input.length) :
    inputWord (inputByte input) a = leWord (inputSlice input a 8) := by
  refine congrArg leWord (List.ext_getElem ?_ fun i hi _ => ?_)
  · simp only [inputSlice, List.length_map, List.length_range, List.length_take, List.length_drop]
    omega
  · rw [List.length_map, List.length_range] at hi
    simp only [inputSlice, inputByte, List.getElem_map, List.getElem_range, List.getElem_take, List.getElem_drop]
    exact List.getD_eq_getElem input 0 (by omega)

/-- With fewer than 16 bytes left R136's loop ends, whatever the fuel. -/
theorem rainbowBlocks_short (k : MixConst) (seed : Word) (input : List Byte) (fuel cur : Nat) {rem : Nat} (inner : Bool)
    (h : Lanes) (short : rem < 16) : rainbowBlocks k seed input fuel cur rem inner h = (h, cur, rem) := by
  cases fuel with
  | zero => rfl
  | succ fuel => rw [rainbowBlocks, if_neg (Nat.not_le.mpr short)]

/-- R136's loop from a state's words, cursor and phase is the machine's loop from that state. -/
theorem rainbowBlocks_eq {input : List Byte} (hlen : input.length < 2 ^ 64) {k fuel : Nat} {s : State}
    (full : 16 * k ≤ s.rem.toNat) (short : s.rem.toNat - 16 * k < 16) (enough : k ≤ fuel)
    (within : s.cur.toNat + s.rem.toNat ≤ input.length) :
    rainbowBlocks Config.mixConst s.seedL input fuel s.cur.toNat s.rem.toNat s.ph s.h =
      ((absorbBlocks (inputByte input) k s).h, s.cur.toNat + 16 * k, s.rem.toNat - 16 * k) := by
  induction k generalizing s fuel with
  | zero => exact rainbowBlocks_short _ _ _ _ _ _ _ short
  | succ k ih =>
    obtain ⟨fuel, rfl⟩ : ∃ f, fuel = f + 1 := ⟨fuel - 1, by omega⟩
    have cur : (absorbNext (inputByte input) s).cur.toNat = s.cur.toNat + 16 := toNat_absorbBlock_cur _ _ (by omega)
    have rem : (absorbNext (inputByte input) s).rem.toNat = s.rem.toNat - 16 := toNat_absorbBlock_rem _ _ (by omega)
    have next := ih (fuel := fuel) (s := absorbNext (inputByte input) s) (by omega) (by omega) (by omega) (by omega)
    have h : (absorbNext (inputByte input) s).h = mixByPhase Config.mixConst s.ph s.seedL
        (absorbWords s.h (leWord (inputSlice input s.cur.toNat 8))
          (leWord (inputSlice input (s.cur.toNat + 8) 8))) := by
      rw [← inputWord_eq (by omega), ← inputWord_eq (by omega)]
      rfl
    have cur_sum : s.cur.toNat + 16 * (k + 1) = s.cur.toNat + 16 + 16 * k := by omega
    have rem_sum : s.rem.toNat - 16 * (k + 1) = s.rem.toNat - 16 - 16 * k := by omega
    rw [cur, rem, h] at next
    rw [rainbowBlocks, if_pos (by omega), cur_sum, rem_sum]
    exact next

/-- The machine's tail is R136's, when the bytes left are the input's. -/
theorem absorbTail_eq {input : List Byte} {s : State}
    (present : ∀ i, i < s.rem.toNat → readByte s (s.cur.toNat + i) = some (inputByte input (s.cur.toNat + i)))
    (h : Lanes) : absorbTail s tailMap h = some (rainbowTail input s.cur.toNat s.rem.toNat h) :=
  absorbTail_present s (fun i => inputByte input (s.cur.toNat + i)) present tailMap h

/-! The straight-line part of the program: each operation takes one step to the next address. -/

/-- The state with the sequencer at address u, the state words l and the output o. -/
def State.withDatapath (s : State) (u : BitVec 5) (l : Lanes) (o : Vector Byte 32) : State :=
  { s with upc := u, h := l, out := o }

section
variable {s : State} {u : BitVec 5} {l : Lanes} {o : Vector Byte 32} (n : Nat)

theorem Running.withDatapath (hs : Running s) : Running (s.withDatapath u l o) := { hs with }

theorem run_mixa (hs : Running s) (hu : romInstr u.toNat = some .mixa) :
    core.run (n + 1) (s.withDatapath u l o) = core.run n (s.withDatapath (u + 1) (mixA Config.mixConst l) o) :=
  hs.withDatapath.run_eq hu rfl n

theorem run_mixb (hs : Running s) (hu : romInstr u.toNat = some .mixb) :
    core.run (n + 1) (s.withDatapath u l o) = core.run n (s.withDatapath (u + 1) (mixB Config.mixConst s.seedL l) o) :=
  hs.withDatapath.run_eq hu rfl n

theorem run_tail {l' : Lanes} (hs : Running s) (hu : romInstr u.toNat = some .tail) (short : s.rem.toNat < 16)
    (hl : absorbTail s tailMap l = some l') :
    core.run (n + 1) (s.withDatapath u l o) = core.run n (s.withDatapath (u + 1) l' o) := by
  have read (a : Nat) : readByte (s.withDatapath u l o) a = readByte s a := readByte_congr rfl rfl a
  exact hs.withDatapath.run_eq hu (exec_tail_adds short ((absorbTail_congr read rfl rfl tailMap l).trans hl)) n

theorem run_sqz (j : BitVec 2) (hs : Running s) (hu : romInstr u.toNat = some (sqzOfSlot j)) :
    core.run (n + 1) (s.withDatapath u l o) =
      core.run n (s.withDatapath (u + 1) l (outWrite o (slotOffset j) (squeezeWord l))) :=
  hs.withDatapath.run_eq hu ((exec_sqzOfSlot j _).trans (squeeze_eq j _)) n

theorem run_chk_jumps (c : BitVec 2) (hs : Running s) (hu : romInstr u.toNat = some (chkOfThreshold c))
    (below : s.scls.toNat < c.toNat) :
    core.run (n + 1) (s.withDatapath u l o) = core.run n (s.withDatapath 18 l o) :=
  hs.withDatapath.run_eq hu ((exec_chkOfThreshold c _).trans (congrArg Host.Outcome.next (if_pos below))) n

theorem run_chk_passes (c : BitVec 2) (hs : Running s) (hu : romInstr u.toNat = some (chkOfThreshold c))
    (reached : c.toNat ≤ s.scls.toNat) :
    core.run (n + 1) (s.withDatapath u l o) = core.run n (s.withDatapath (u + 1) l o) :=
  hs.withDatapath.run_eq hu
    ((exec_chkOfThreshold c _).trans (congrArg Host.Outcome.next (if_neg (Nat.not_lt.mpr reached)))) n

theorem run_done (hs : Running s) (hu : romInstr u.toNat = some .done) :
    core.run 1 (s.withDatapath u l o) = .next (s.withDatapath u l o).setDone :=
  hs.withDatapath.run_eq hu rfl 0

/-- The three words of the pseudo-instruction FINAL (R72, R118). -/
theorem run_core (hs : Running s) (hA : romInstr u.toNat = some .mixa) (hB : romInstr (u + 1).toNat = some .mixb)
    (hA' : romInstr (u + 1 + 1).toNat = some .mixa) :
    core.run (n + 3) (s.withDatapath u l o) =
      core.run n (s.withDatapath (u + 1 + 1 + 1) (rainbowCore Config.mixConst s.seedL l) o) := by
  rw [run_mixa _ hs hA, run_mixb _ hs hB, run_mixa _ hs hA']
  rfl

end

/-- The steps of a run from address 4 on, by size class. -/
def finalSteps (cls : BitVec 2) : Nat := if cls = 1 then 9 else if cls = 2 then 15 else 6

theorem runSteps_eq (cls : BitVec 2) (k : Nat) : runSteps cls k = 1 + ((k + 1) + (finalSteps cls + 2)) := by
  unfold runSteps finalSteps
  split_ifs <;> omega

/-- Finalization and squeeze (R118 to R122): from address 4 with state words l and a zero output, to DONE. -/
theorem run_final {s : State} (hs : Running s) {size : Half} (hscls : s.scls = sizeClass size) (l : Lanes) :
    ∃ l', core.run (finalSteps (sizeClass size)) (s.withDatapath 4 l zeroOut) = .next (s.withDatapath 18 l'
      (outOfSize Config.mixConst s.seedL size (rainbowCore Config.mixConst s.seedL l))).setDone := by
  by_cases h128 : size = 128
  · subst h128
    have scls : s.scls = 1 := hscls
    refine ⟨mixA Config.mixConst (rainbowCore Config.mixConst s.seedL l), ?_⟩
    change core.run 9 _ = _
    rw [run_core _ hs rfl rfl rfl, run_sqz _ 0 hs rfl, run_chk_passes _ 1 hs rfl (by rw [scls]), run_mixa _ hs rfl,
      run_sqz _ 1 hs rfl, run_chk_jumps _ 2 hs rfl (by rw [scls]; decide), run_done hs rfl]
    rfl
  · by_cases h256 : size = 256
    · subst h256
      have scls : s.scls = 2 := hscls
      refine ⟨mixA Config.mixConst (rainbowCore Config.mixConst s.seedL (mixA Config.mixConst
        (rainbowCore Config.mixConst s.seedL l))), ?_⟩
      change core.run 15 _ = _
      rw [run_core _ hs rfl rfl rfl, run_sqz _ 0 hs rfl, run_chk_passes _ 1 hs rfl (by rw [scls]; decide),
        run_mixa _ hs rfl, run_sqz _ 1 hs rfl, run_chk_passes _ 2 hs rfl (by rw [scls]), run_core _ hs rfl rfl rfl,
        run_sqz _ 2 hs rfl, run_mixa _ hs rfl, run_sqz _ 3 hs rfl, run_done hs rfl]
      rfl
    · have other := sizeClass_other h128 h256
      have scls : s.scls = 0 := hscls.trans other
      refine ⟨rainbowCore Config.mixConst s.seedL l, ?_⟩
      rw [other, outOfSize, if_neg h128, if_neg h256]
      change core.run 6 _ = _
      rw [run_core _ hs rfl rfl rfl, run_sqz _ 0 hs rfl, run_chk_jumps _ 1 hs rfl (by rw [scls]; decide),
        run_done hs rfl]
      rfl

/-- The state INIT gives (R102). -/
def State.afterInit (s : State) : State := { s with
  out := zeroOut, h := initLanes s.seedL s.lenL, cur := 0, rem := s.lenL, ph := false, upc := s.upc + 1 }

/-- The run of s on an input stands at b when its blocks are absorbed: what the rest of the run needs of b. -/
structure BlocksDone (input : List Byte) (s b : State) : Prop where
  running : Running b
  upc     : b.upc = 1
  out     : b.out = zeroOut
  seedL   : b.seedL = s.seedL
  scls    : b.scls = s.scls
  short   : b.rem.toNat < 16
  cursor  : b.cur.toNat + b.rem.toNat = input.length
  read    : ∀ a, readByte b a = readByte s a
  lanes   : rainbowCore Config.mixConst s.seedL
      (rainbowTail input b.cur.toNat b.rem.toNat (mixB Config.mixConst s.seedL b.h)) =
    rainbowLanes Config.mixConst input s.seedL

section
variable {input : List Byte} {s : State}

/-- REM after INIT is the input's length (R102). -/
theorem afterInit_rem (hlen : input.length < 2 ^ 64) (hlenL : s.lenL = BitVec.ofNat 64 input.length) :
    s.afterInit.rem.toNat = input.length := by
  rw [State.afterInit, hlenL, BitVec.toNat_ofNat, Nat.mod_eq_of_lt hlen]

/-- After INIT and the input's full blocks the machine has the state words of R136's step 3. -/
theorem blocksDone_absorbBlocks (hlen : input.length < 2 ^ 64) (hs : Running s) (hu : s.upc = 0)
    (hlenL : s.lenL = BitVec.ofNat 64 input.length) :
    BlocksDone input s (absorbBlocks (inputByte input) (input.length / 16) s.afterInit) := by
  have cur : s.afterInit.cur.toNat = 0 := rfl
  have rem := afterInit_rem hlen hlenL
  have h : s.afterInit.h = initLanes s.seedL (BitVec.ofNat 64 input.length) := congrArg (initLanes s.seedL) hlenL
  obtain ⟨bcur, brem, -⟩ := absorbBlocks_cursor (inputByte input) (k := input.length / 16) (s := s.afterInit) (by omega)
    (by omega)
  have blocks := rainbowBlocks_eq hlen (k := input.length / 16) (fuel := input.length) (s := s.afterInit) (by omega)
    (by omega) (Nat.div_le_self _ _) (by omega)
  rw [← bcur, ← brem, cur, rem, h] at blocks
  have frame := absorbBlocks_eq (inputByte input) (input.length / 16) s.afterInit
  refine ⟨?running, ?upc, ?out, ?seedL, ?scls, by omega, by omega, fun a => ?read, ?lanes⟩
  case running => rw [frame]; exact { hs with }
  case upc => rw [frame, State.afterInit, hu]; rfl
  case out | seedL | scls => rw [frame]; rfl
  case read => rw [frame]; exact readByte_congr rfl rfl a
  case lanes =>
    change rainbowBlocks Config.mixConst s.seedL input input.length 0 input.length false _ = _ at blocks
    rw [rainbowLanes, blocks]
/-- The part of a run after the block loop, from its exit to DONE (R107, R112, R118 to R122). -/
theorem BlocksDone.run {b : State} (hb : BlocksDone input s b) {size : Half} (hscls : s.scls = sizeClass size)
    (present : ∀ a, a < input.length → readByte s a = some (inputByte input a)) :
    ∃ t, core.run (finalSteps (sizeClass size) + 2) b.advance = .next t ∧ t.busy = false ∧ t.done = true ∧
      t.out = (rainbow Config.mixConst size input s.seedL).out := by
  obtain ⟨running, upc, out, seedL, scls, short, cursor, read, lanes⟩ := hb
  have exit : b.advance = b.withDatapath 2 b.h zeroOut := by
    rw [State.advance, upc, State.withDatapath, ← out]
    rfl
  have tail (h : Lanes) := absorbTail_eq (s := b) (fun i hi => (read _).trans (present _ (by omega))) h
  obtain ⟨l', final⟩ := run_final running (scls.trans hscls)
    (rainbowTail input b.cur.toNat b.rem.toNat (mixB Config.mixConst b.seedL b.h))
  refine ⟨_, Eq.trans ?_ final, rfl, rfl, ?_⟩
  · rw [exit, run_mixb _ running rfl, run_tail _ running rfl short (tail _)]
    rfl
  · rw [rainbow_eq, ← lanes, ← seedL]
    rfl

/-- A run from address 0 with its input readable ends in DONE with OUT the function rainbow (R132, R136, R137). -/
theorem run_digest (hlen : input.length < 2 ^ 64) (hs : Running s) (hu : s.upc = 0)
    (hlenL : s.lenL = BitVec.ofNat 64 input.length) {size : Half} (hscls : s.scls = sizeClass size)
    (present : ∀ a, a < input.length → readByte s a = some (inputByte input a)) :
    ∃ t, core.run (runSteps (sizeClass size) (input.length / 16)) s = .next t ∧ t.busy = false ∧ t.done = true ∧
      t.out = (rainbow Config.mixConst size input s.seedL).out := by
  have init : step s = .next s.afterInit := (hs.step_eq (i := .init) (hu ▸ rfl)).trans (exec_init s)
  have cur : s.afterInit.cur.toNat = 0 := rfl
  have rem := afterInit_rem hlen hlenL
  have upc : s.afterInit.upc = 1 := congrArg (· + 1) hu
  have loop := run_loop (inputByte input) (k := input.length / 16) (s := s.afterInit) { hs with } upc (by omega)
    (by omega) (by omega) fun i hi => present _ (by omega)
  rw [runSteps_eq, run_append (run_one init), run_append loop]
  exact (blocksDone_absorbBlocks hlen hs hu hlenL).run hscls present

end

/-- The step of the host's write of START, when it is accepted. -/
theorem step_start {s : State} {d : Word} {ts : List Turn} {z : Half} {sd ln : Word}
    (due : s.schedule = .host (.access (.write 0x00 64 d)) :: ts) (bit : d.getLsbD 0 = true) (idle : s.busy = false)
    (size : s.size = some z) (seed : s.seed = some sd) (length : s.length = some ln) :
    step s = .next (acceptStart z sd ln s.popTurn) := by
  rw [step_host due]
  exact (hostAct_write rfl rfl d _).trans ((writeCtrl_start bit _).trans (execStart_accept idle size seed length))

/-- Settles O43: the step of START (`step_start`), then the run (`run_digest`). -/
theorem digestRunComputesRainbow : Obligations.DigestRunComputesRainbow := by
  intro s size seed input d hlen urom idle hsize hseed hlength supplies bit due
  have running : Running (acceptStart size seed (BitVec.ofNat 64 input.length) s.popTurn) :=
    ⟨urom, rfl, congrArg List.tail due⟩
  have present (a : Nat) (ha : a < input.length) :
      readByte (acceptStart size seed (BitVec.ofNat 64 input.length) s.popTurn) a = some (inputByte input a) := by
    rw [inputByte, List.getD_eq_getElem input 0 ha]
    exact supplies a ha
  obtain ⟨t, run, busy, done, out⟩ := run_digest hlen running rfl rfl rfl present
  rw [run_append (run_one (step_start due bit idle hsize hseed hlength))]
  exact ⟨t, run, busy, done, out, congrArg first4 out⟩

end Sys2Proof.Machine
